-- ==== Sys2Proof/Word.lean ====
section
/-! DEFINITION. The value types of the Wiegand Line Decoder (WLD) and of its stimulus words. -/

namespace Sys2Proof

/-- One 8-bit stimulus word (30_encoding.md R54). -/
abbrev StimulusWord := BitVec 8

/-- A reader index as an operand: an unsigned 2-bit number, in range or not (R52). -/
abbrev ReaderIx := BitVec 2

/-- The sequencer's 3-bit phase (R15, R60). -/
abbrev Phase := BitVec 3

/-- A pin identifier: an unsigned 8-bit number (R5, D6). -/
abbrev PinId := BitVec 8

/-- A 3-bit selector of the register selector space (R30). -/
abbrev Selector := BitVec 3

/-- The index of a reader instance the block can have: 0, 1 or 2 (R10, R124). -/
abbrev Slot := Fin 3

/-- A line level; `low` is the active one (R8, R50). -/
inductive Level where
  | low
  | high
  deriving DecidableEq, Repr

/-- A pin's direction (R14). -/
inductive Dir where
  | input
  | output
  deriving DecidableEq, Repr

/-- The two lines of a reader, the source's pair (zeroLine, oneLine): k = 0 and k = 1 (R52). -/
inductive LineSel where
  | zero
  | one
  deriving DecidableEq, Repr

end Sys2Proof
end

