-- ==== Sys2Proof/Config.lean ====
section
/-! DEFINITION. The parameters of the WLD (00_scope.md R5) and the well-formedness of a configuration (R6). -/

namespace Sys2Proof

/-- `PIN_ZERO[r]` and `PIN_ONE[r]` of one reader (R5, R13). -/
structure PinPair where
  zero : PinId
  one : PinId
  deriving DecidableEq, Repr

/-- The parameters a model takes as arguments (R5). They are data, so that a statement about every
state is a statement about every configuration. `TIME_UNIT` is `Config.timeUnit` below. -/
structure Config where
  /-- `N_READERS`. -/
  nReaders : Nat
  /-- `CODE_W`. -/
  codeW : Nat
  /-- `COUNT_W`. -/
  countW : Nat
  /-- The pins of readers 0, 1, … in order. -/
  lines : List PinPair
  /-- `SETTLE_DELAY`, in time-units. -/
  settleDelay : Nat
  deriving DecidableEq, Repr

/-- The pin identifiers of all readers. -/
def Config.pins (cfg : Config) : List PinId := cfg.lines.flatMap fun p => [p.zero, p.one]

/-- A configuration is well formed (R6): 1 to 3 readers, the two least widths, and one pair of pins
for each reader, all pins distinct. -/
abbrev Config.WellFormed (cfg : Config) : Prop :=
  (1 ≤ cfg.nReaders ∧ cfg.nReaders ≤ 3) ∧ 32 ≤ cfg.codeW ∧ 6 ≤ cfg.countW ∧
    cfg.lines.length = cfg.nReaders ∧ cfg.pins.Nodup

/-- The defaults of R5. The pins of readers 1 and 2 are a DESIGN CHOICE: the spec gives none (log 2). -/
def Config.default : Config where
  nReaders := 3
  codeW := 32
  countW := 16
  lines := [⟨4, 5⟩, ⟨6, 7⟩, ⟨8, 9⟩]
  settleDelay := 10

/-- `TIME_UNIT`, the duration of one time-unit: open, with no default, and no rule reads it (R5, N7).
It has no body, so nothing can be proved of its value (log 13). -/
opaque Config.timeUnit : Nat

end Sys2Proof
end

