-- ==== Sys2Proof/Machine/State.lean ====
section
/-! DEFINITION. The state of the WLD (10_state.md), the model's own fields beside it, the outcomes of a
step (60_exceptions.md R114), and the state after power-on (R25). -/

namespace Sys2Proof.Machine

/-- The control fields of one line (R14). -/
structure Line where
  /-- `dir[r][k]`. -/
  dir : Dir
  /-- `out[r][k]`: the level driven while `dir` is `output`. -/
  out : Level
  /-- `pu[r][k]`: the pull-up is on. -/
  pu : Bool
  deriving DecidableEq, Repr

/-- One reader instance (R10 to R14). A register is held as the unsigned integer it holds, because its
width is a parameter; that it fits its width is an invariant (`State.InRange`, log 4). -/
structure Reader where
  /-- `code[r]`, `CODE_W` bits (R11). -/
  code : Nat
  /-- `cnt[r]`, `COUNT_W` bits (R12). -/
  cnt : Nat
  /-- Line (r, 0). -/
  zeroLine : Line
  /-- Line (r, 1). -/
  oneLine : Line
  deriving DecidableEq, Repr

/-- The two conceptual states of a reader (R16). -/
inductive ReaderFsm where
  | idle
  | accumulating
  deriving DecidableEq, Repr

/-- The causes of the spec's `Fault` outcome (R112, R114). -/
inductive FaultCause where
  /-- An edge of the reader under initialization (R78). -/
  | initRace
  deriving DecidableEq, Repr

/-- The causes of the spec's `Refuse` outcome (R114). -/
inductive RefuseCause where
  /-- A reader that does not exist (R61 case 4). -/
  | badReader
  /-- A reserved word (R61 cases 1 to 3). -/
  | reserved
  /-- `INIT` while busy (R80). -/
  | busy
  /-- `SEQ` while not busy (R81). -/
  | notBusy
  deriving DecidableEq, Repr

/-- The outcome of a step as the spec numbers it (R114). All of them are NEXT states of this model: a
`fault` or `refuse` outcome changes no hardware state, sets its mark, and the run goes on (log 8). -/
inductive StepOutcome where
  | ok
  | fault (cause : FaultCause)
  | refuse (cause : RefuseCause)
  deriving DecidableEq, Repr

/-- Why a step stops the model. -/
inductive Fault where
  /-- Raised by a micro-operation when `seq_r` names a reader that does not exist. R15 rules such a state
  out and no run reaches one, so stopping is SAFE (log 10). -/
  | seqReaderAbsent
  deriving DecidableEq, Repr

/-- Why a step has no meaning. -/
inductive Refusal where
  /-- Raised by `exec` for an instruction without a meaning yet. SAFE. No arm raises it now. -/
  | notModelled (mnemonic : String)
  /-- Raised by `step` in a configuration that is not well formed: "A model refuses any other
  configuration" (R6). SAFE (log 9). -/
  | illFormedConfig
  deriving DecidableEq, Repr

/-- The state of the machine. -/
structure State where
  /-- The configuration, "fixed at configuration time, immutable thereafter" (R5, R13, R25). -/
  cfg : Config
  /-- The reader instances; those at or above `N_READERS` do not exist and nothing reaches them (log 5). -/
  readers : Vector Reader 3
  /-- `busy` (R15). -/
  busy : Bool
  /-- `seq_r` (R15). -/
  seqR : ReaderIx
  /-- `seq_phase` (R15). -/
  seqPhase : Phase
  /-- The sticky mark `faulted` (R24). -/
  faulted : Bool
  /-- The sticky mark `refused` (R24). -/
  refused : Bool
  /-- The model's own: the stimulus words still to come, the next one first (R54, R18, log 6). -/
  stimuli : List StimulusWord
  /-- The model's own: the outcome of the latest step (R114, log 7). -/
  outcome : StepOutcome
  /-- The model's own: the value the latest step returned (`return v`, R9, log 7). -/
  returned : Option Nat
  /-- The model's own: the delay the latest step requested (`DelayRequest`, R9, R88, log 7). -/
  delayReq : Option Nat
  deriving DecidableEq, Repr

/-- A line after power-on: `INPUT`, `LOW`, off (R25). -/
def Line.powerOn : Line := ⟨.input, .low, false⟩

/-- A reader instance after power-on, holding the contents `(code[r], cnt[r])` (R25). -/
def Reader.powerOn (contents : Nat × Nat) : Reader :=
  ⟨contents.1, contents.2, Line.powerOn, Line.powerOn⟩

/-- The state after power-on, for any configuration and any contents (`code[r]`, `cnt[r]`) of the data
registers: R25 leaves the contents unspecified. -/
def State.powerOn (cfg : Config) (contents : Vector (Nat × Nat) 3) : State where
  cfg := cfg
  readers := #v[Reader.powerOn contents[0], Reader.powerOn contents[1], Reader.powerOn contents[2]]
  busy := false
  seqR := 0
  seqPhase := 0
  faulted := false
  refused := false
  stimuli := []
  outcome := .ok
  returned := none
  delayReq := none

/-- The machine right after reset (R25): the default configuration (log 1, log 2), and every data
register 0, a DESIGN CHOICE since the spec gives no value (log 3). -/
def State.reset : State := State.powerOn Config.default #v[(0, 0), (0, 0), (0, 0)]

end Sys2Proof.Machine
end

