-- ==== Sys2Proof/Machine/Flags.lean ====
section
/-! DEFINITION. The arithmetic of the data registers (40_edge_handlers.md R73, R74) and the one flag-like
state derived from them (10_state.md R16). -/

namespace Sys2Proof.Machine

/-- `trunc_n(v) = v mod 2^n` (R7). -/
def trunc (n v : Nat) : Nat := v % 2 ^ n

/-- `Append(c, b) = trunc_CODE_W(2 * c + b)`: the top bit is dropped (R73, D3). -/
def append (cfg : Config) (c : Nat) (b : Bool) : Nat := trunc cfg.codeW (2 * c + b.toNat)

/-- `Inc(n) = min(n + 1, 2^COUNT_W - 1)`: a saturating increment (R74, D4). -/
def inc (cfg : Config) (n : Nat) : Nat := min (n + 1) (2 ^ cfg.countW - 1)

/-- `fsm(r)`: IDLE when the count is 0, ACCUMULATING otherwise (R16, R53). -/
def Reader.fsm (rd : Reader) : ReaderFsm := if rd.cnt = 0 then .idle else .accumulating

end Sys2Proof.Machine
end

