-- ==== Sys2Proof/Syntax.lean ====
section
/-! DEFINITION. The instructions: one constructor for each row of spec/opcode_table.json, and the
pseudo-instructions of R64. -/

namespace Sys2Proof

/-- The six operations a stimulus word names (R58) and the eight micro-operations the sequencer's
phase names (R60). -/
inductive Instr where
  /-- `INIT r` (R80). -/
  | init (r : ReaderIx)
  /-- `EDGE0 r, x` (R71). -/
  | edge0 (r : ReaderIx) (x : Level)
  /-- `EDGE1 r, x` (R72). -/
  | edge1 (r : ReaderIx) (x : Level)
  /-- `RDCODE r` (R100). -/
  | rdcode (r : ReaderIx)
  /-- `RDCNT r` (R101). -/
  | rdcnt (r : ReaderIx)
  /-- `SEQ` (R81). -/
  | seq
  /-- `Z_HIGH`, phase 0 (R82). -/
  | zHigh
  /-- `Z_LOW`, phase 1 (R83). -/
  | zLow
  /-- `Z_REL`, phase 2 (R84). -/
  | zRel
  /-- `O_HIGH`, phase 3 (R85). -/
  | oHigh
  /-- `O_LOW`, phase 4 (R86). -/
  | oLow
  /-- `O_REL`, phase 5 (R87). -/
  | oRel
  /-- `SETTLE`, phase 6 (R88). -/
  | settle
  /-- `CLEAR`, phase 7 (R89). -/
  | clear
  deriving DecidableEq, Repr

/-- The micro-operations as the sequencer knows them (R60). -/
inductive MicroOp where
  | zHigh | zLow | zRel | oHigh | oLow | oRel | settle | clear
  deriving DecidableEq, Repr

/-- Where an instruction's bits stand: in a stimulus word (R54), or in the sequencer's phase register
(R60: the micro-operations "are not selected by a stimulus word"). -/
inductive Code where
  | stimulus (w : StimulusWord)
  | phase (p : Phase)
  deriving DecidableEq, Repr

/-- The pseudo-instructions of R64. -/
inductive Pseudo where
  | bit0 (r : ReaderIx)
  | bit1 (r : ReaderIx)
  | spur0 (r : ReaderIx)
  | spur1 (r : ReaderIx)
  | initw (r : ReaderIx)
  | frame (r : ReaderIx) (bits : List Bool)
  | rd (r : ReaderIx)
  deriving DecidableEq, Repr

/-- Who performs an operation (R122). The third kind of agent, the environment, performs none. -/
inductive Agent where
  /-- The host, with the sequencer that works on its behalf. -/
  | host
  /-- The handler of line k of reader r. -/
  | handler (r : ReaderIx) (k : LineSel)
  deriving DecidableEq, Repr

end Sys2Proof
end

