-- ==== Sys2Proof/Decode.lean ====
section
/-! DEFINITION. The encodings of 30_encoding.md: fields of a stimulus word, the decoder (total on all
256 words and all 8 phases, rejecting by name), the encoder, the opcode map, and the expansions of the
pseudo-instructions. -/

namespace Sys2Proof

/-! ### Encodings of single values (R50, R51, R52, R65) -/

/-- `LOW` = 0, `HIGH` = 1 (R50). -/
def Level.bit : Level → BitVec 1
  | .low => 0
  | .high => 1

/-- The level a bit stands for (R50). -/
def Level.ofBit (b : BitVec 1) : Level := if b = 0 then .low else .high

/-- `INPUT` = 0, `OUTPUT` = 1 (R65). -/
def Dir.bit : Dir → BitVec 1
  | .input => 0
  | .output => 1

/-- off = 0, on = 1 (R65). -/
def pullUpBit (pu : Bool) : BitVec 1 := if pu then 1 else 0

/-- The line index k: 0 is the zero-line, 1 is the one-line (R52). -/
def LineSel.index : LineSel → BitVec 1
  | .zero => 0
  | .one => 1

/-- The bit a valid edge on the line contributes: 0 on the zero-line, 1 on the one-line (R51). -/
def LineSel.bitValue : LineSel → Bool
  | .zero => false
  | .one => true

/-! ### Fields of a stimulus word (R54) -/

/-- `op = w[7:4]`. -/
def opOf (w : StimulusWord) : BitVec 4 := w.extractLsb' 4 4

/-- `z = w[3]`, reserved. -/
def zOf (w : StimulusWord) : BitVec 1 := w.extractLsb' 3 1

/-- `x = w[2]`. -/
def xOf (w : StimulusWord) : BitVec 1 := w.extractLsb' 2 1

/-- `r = w[1:0]`. -/
def rOf (w : StimulusWord) : ReaderIx := w.extractLsb' 0 2

/-- The word with these fields and `z = 0`. -/
def mkWord (op : BitVec 4) (x : BitVec 1) (r : ReaderIx) : StimulusWord := op ++ (0 : BitVec 1) ++ x ++ r

/-! ### The decoder -/

/-- Why a stimulus word is no instruction: cases 1, 2 and 3 of R61, in that order. -/
inductive Reject where
  /-- Case 1: `op` is 0x0 or 0x7 to 0xF. -/
  | reservedOpcode
  /-- Case 2: `w[3] = 1`. -/
  | reservedBit
  /-- Case 3: an operand field that must be zero is not. -/
  | fieldNotZero
  deriving DecidableEq, Repr

/-- Decode one stimulus word (R54 to R59), with the checks of R61 cases 1 to 3 in the spec's order.
Case 4, the reader range, is checked after the row is found ("a word that matches a row still undergoes
the reader range check", R58): by `Instr.wellFormed` and by each meaning. -/
def decodeStimulus (w : StimulusWord) : Except Reject Instr :=
  if opOf w = 0 ∨ 7 ≤ opOf w then .error .reservedOpcode
  else if zOf w = 1 then .error .reservedBit
  else if opOf w = 2 then .ok (.edge0 (rOf w) (Level.ofBit (xOf w)))
  else if opOf w = 3 then .ok (.edge1 (rOf w) (Level.ofBit (xOf w)))
  else if xOf w = 1 then .error .fieldNotZero
  else if opOf w = 1 then .ok (.init (rOf w))
  else if opOf w = 4 then .ok (.rdcode (rOf w))
  else if opOf w = 5 then .ok (.rdcnt (rOf w))
  else if rOf w ≠ 0 then .error .fieldNotZero
  else .ok .seq

/-- The micro-operation a phase names: all eight values are used (R60). -/
def MicroOp.ofPhase (p : Phase) : MicroOp :=
  if p = 0 then .zHigh
  else if p = 1 then .zLow
  else if p = 2 then .zRel
  else if p = 3 then .oHigh
  else if p = 4 then .oLow
  else if p = 5 then .oRel
  else if p = 6 then .settle
  else .clear

/-- A micro-operation's phase number (R60). -/
def MicroOp.phase : MicroOp → Phase
  | .zHigh => 0
  | .zLow => 1
  | .zRel => 2
  | .oHigh => 3
  | .oLow => 4
  | .oRel => 5
  | .settle => 6
  | .clear => 7

/-- A micro-operation as an instruction (its row of the opcode table). -/
def MicroOp.instr : MicroOp → Instr
  | .zHigh => .zHigh
  | .zLow => .zLow
  | .zRel => .zRel
  | .oHigh => .oHigh
  | .oLow => .oLow
  | .oRel => .oRel
  | .settle => .settle
  | .clear => .clear

/-- Decode in either space: stimulus words, and phases of the sequencer. -/
def decode : Code → Except Reject Instr
  | .stimulus w => decodeStimulus w
  | .phase p => .ok (MicroOp.ofPhase p).instr

/-! ### The encoder -/

/-- The code of an instruction, from the opcode map (R58) and the phase table (R60). -/
def encode : Instr → Code
  | .init r => .stimulus (mkWord 0x1 0 r)
  | .edge0 r x => .stimulus (mkWord 0x2 x.bit r)
  | .edge1 r x => .stimulus (mkWord 0x3 x.bit r)
  | .rdcode r => .stimulus (mkWord 0x4 0 r)
  | .rdcnt r => .stimulus (mkWord 0x5 0 r)
  | .seq => .stimulus (mkWord 0x6 0 0)
  | .zHigh => .phase 0
  | .zLow => .phase 1
  | .zRel => .phase 2
  | .oHigh => .phase 3
  | .oLow => .phase 4
  | .oRel => .phase 5
  | .settle => .phase 6
  | .clear => .phase 7

/-- The stimulus word of an instruction that has one; a micro-operation is performed by `SEQ`, so the
word that makes it happen is `SEQ`'s (R60, R81). -/
def Instr.word (i : Instr) : StimulusWord :=
  match encode i with
  | .stimulus w => w
  | .phase _ => mkWord 0x6 0 0

/-! ### The opcode map (R58) as data -/

/-- One row of R58: a word `w` belongs to it when `w & mask = pattern`. -/
structure OpcodeRow where
  pattern : StimulusWord
  mask : StimulusWord
  deriving DecidableEq, Repr

/-- The rows of `INIT`, `EDGE0`, `EDGE1`, `RDCODE`, `RDCNT`, `SEQ`, in that order. -/
def opcodeRows : List OpcodeRow :=
  [⟨0x10, 0xFC⟩, ⟨0x20, 0xF8⟩, ⟨0x30, 0xF8⟩, ⟨0x40, 0xFC⟩, ⟨0x50, 0xFC⟩, ⟨0x60, 0xFF⟩]

/-- The word belongs to the row. -/
def OpcodeRow.selects (row : OpcodeRow) (w : StimulusWord) : Bool := w &&& row.mask == row.pattern

/-! ### The opcode table's numbering of words -/

/-- The code that the opcode table's bits `w` stand for. The table has two spaces: rows of 3 bits in
`seq_phase`, and rows of 8 bits in the stimulus word. No stimulus row has a word below 0x10 (R58: opcode
0x0 is reserved), so a number below 8 is a phase. A stimulus WORD below 8 is reserved all the same, as
`decodeStimulus` says (log 11). -/
def tableCode (_nbits w : Nat) : Option Code :=
  if w < 8 then some (.phase (BitVec.ofNat 3 w))
  else if w < 256 then some (.stimulus (BitVec.ofNat 8 w))
  else none

/-- What the decoder reads from the opcode table's bits `w`. -/
def decodeTableWord (nbits w : Nat) : Option Instr :=
  match tableCode nbits w with
  | none => none
  | some c => (decode c).toOption

/-! ### Pseudo-instructions (R64) -/

/-- The edge operation of a line (R117: the zero-line's is `EDGE0`, the one-line's is `EDGE1`). -/
def LineSel.edge (k : LineSel) (r : ReaderIx) (x : Level) : Instr :=
  match k with
  | .zero => .edge0 r x
  | .one => .edge1 r x

/-- A valid pulse of the given bit value (`BIT0`, `BIT1`). -/
def pulse (r : ReaderIx) (b : Bool) : Instr := if b then .edge1 r .low else .edge0 r .low

/-- The expansions of R64. -/
def Pseudo.expand : Pseudo → List Instr
  | .bit0 r => [.edge0 r .low]
  | .bit1 r => [.edge1 r .low]
  | .spur0 r => [.edge0 r .high]
  | .spur1 r => [.edge1 r .high]
  | .initw r => .init r :: List.replicate 8 .seq
  | .frame r bits => bits.map (pulse r)
  | .rd r => [.rdcnt r, .rdcode r]

/-- The stimulus words of a pseudo-instruction. -/
def Pseudo.words (p : Pseudo) : List StimulusWord := p.expand.map Instr.word

end Sys2Proof
end

