-- ==== Sys2Proof/Machine/Operands.lean ====
section
/-! DEFINITION. The operand forms: a reader index (R52, R59), a line of a reader (R9), a register
selector (20_memory.md R30), a pin (10_state.md R13), and the agent of an operation (R122). -/

namespace Sys2Proof.Machine

/-- The reader instance an index names: `r < N_READERS`, and never reader 3 (R52, R61 case 4). -/
def readerSlot (cfg : Config) (r : ReaderIx) : Option Slot :=
  if h : r.toNat < 3 then
    if r.toNat < cfg.nReaders then some ⟨r.toNat, h⟩ else none
  else none

/-- The index of a reader instance. -/
def slotIx (q : Slot) : ReaderIx := BitVec.ofNat 2 q.val

/-- Read of the reader instance `q`. -/
def State.reader (s : State) (q : Slot) : Reader := s.readers[q.val]

/-- Write of the reader instance `q`. -/
def State.setReader (s : State) (q : Slot) (rd : Reader) : State :=
  { s with readers := s.readers.set q.val rd }

/-- Read of a line of a reader. -/
def Reader.line (rd : Reader) : LineSel → Line
  | .zero => rd.zeroLine
  | .one => rd.oneLine

/-- Write of a line of a reader. -/
def Reader.setLine (rd : Reader) (k : LineSel) (l : Line) : Reader :=
  match k with
  | .zero => { rd with zeroLine := l }
  | .one => { rd with oneLine := l }

/-- The selector `{r, sel}` (R30): `sel` 0 is `code`, 1 is `cnt`. -/
def selector (r : ReaderIx) (sel : BitVec 1) : Selector := r ++ sel

/-- The pin of line `k`: `PIN_ZERO[r]` or `PIN_ONE[r]` (R13). -/
def pinOf (pair : PinPair) : LineSel → PinId
  | .zero => pair.zero
  | .one => pair.one

/-- `LineOfPin(p)` (R13): the reader and line whose configured pin is `p`, looked for from reader `r` on. -/
def lineOfPinFrom (p : PinId) (r : Nat) : List PinPair → Option (Nat × LineSel)
  | [] => none
  | pair :: rest =>
    if p = pair.zero then some (r, .zero)
    else if p = pair.one then some (r, .one)
    else lineOfPinFrom p (r + 1) rest

/-- `LineOfPin(p)` (R13). -/
def lineOfPin (cfg : Config) (p : PinId) : Option (Nat × LineSel) := lineOfPinFrom p 0 cfg.lines

/-- The edge operation that a falling edge on pin `p` is routed to, with the outside level `x` at the
sampling instant (R117): `PIN_ZERO[r]` to `EDGE0 r`, `PIN_ONE[r]` to `EDGE1 r`, any other pin to none. -/
def edgeOfPin (cfg : Config) (p : PinId) (x : Level) : Option Instr :=
  (lineOfPin cfg p).map fun l => l.2.edge (BitVec.ofNat 2 l.1) x

/-- The agent that performs an operation (R122). -/
def agentOf : Instr → Agent
  | .edge0 r _ => .handler r .zero
  | .edge1 r _ => .handler r .one
  | .init _ => .host
  | .rdcode _ => .host
  | .rdcnt _ => .host
  | .seq => .host
  | .zHigh => .host
  | .zLow => .host
  | .zRel => .host
  | .oHigh => .host
  | .oLow => .host
  | .oRel => .host
  | .settle => .host
  | .clear => .host

end Sys2Proof.Machine
end

