-- ==== Sys2Proof/Machine/Ops.lean ====
section
/-! DEFINITION. The named operations the meanings share: raising an outcome, returning a value, the line
sampler, the append of a valid edge, the pin actions, the sequencer, the register selector space, and the
taking of the next stimulus word. -/

namespace Sys2Proof.Machine

/-! ### Raising an outcome (R9 `raise`, R24, R114) -/

/-- The code of an outcome (R114, D24). -/
def StepOutcome.code : StepOutcome → Nat
  | .ok => 0
  | .fault .initRace => 1
  | .refuse .badReader => 2
  | .refuse .reserved => 3
  | .refuse .busy => 4
  | .refuse .notBusy => 5

/-- The step ends with a `Fault` or `Refuse` outcome: no hardware state changes, nothing is returned, and
the sticky mark of its kind is set (R24, R61, R114). This is what the WLD has in the place of taking an
exception; there is nothing to save, no handler and no return from one (R113, R120, R121). -/
def State.raise (s : State) (o : StepOutcome) : State :=
  match o with
  | .ok => { s with outcome := .ok }
  | .fault c => { s with outcome := .fault c, faulted := true }
  | .refuse c => { s with outcome := .refuse c, refused := true }

/-- The operation hands `v` back to its caller (R9 `return v`). -/
def State.returns (s : State) (v : Nat) : State := { s with returned := some v }

/-- `DelayRequest(t)` (R9): changes no state of the WLD. -/
def State.requestDelay (s : State) (t : Nat) : State := { s with delayReq := some t }

/-! ### The line sampler and the edge operations (40_edge_handlers.md) -/

/-- `Sample(r, k, x)` for one line (R70): the driven level while the WLD drives the pin, else the level
presented from outside. -/
def Line.sample (l : Line) (x : Level) : Level :=
  match l.dir with
  | .output => l.out
  | .input => x

/-- `Sample(r, k, x)` (R70). -/
def sample (s : State) (q : Slot) (k : LineSel) (x : Level) : Level := ((s.reader q).line k).sample x

/-- Reader q is under initialization: `busy = 1` and `seq_r = r` (R78). -/
def State.initializing (s : State) (r : ReaderIx) : Bool := s.busy && s.seqR == r

/-- A valid edge of bit value `b`: append the bit and count it, in one step (R71, R72). -/
def appendBit (s : State) (q : Slot) (b : Bool) : State :=
  s.setReader q { s.reader q with
    code := append s.cfg (s.reader q).code b
    cnt := inc s.cfg (s.reader q).cnt }

/-- The edge operation of line `k` (R71, R72): reader range, initialization race, sample, append. -/
def edgeStep (k : LineSel) (r : ReaderIx) (x : Level) (s : State) : State :=
  match readerSlot s.cfg r with
  | none => s.raise (.refuse .badReader)
  | some q =>
    if s.initializing r then s.raise (.fault .initRace)
    else
      match sample s q k x with
      | .low => appendBit s q k.bitValue
      | .high => s

/-! ### Pin actions and the sequencer (41_init_sequencer.md) -/

/-- "drive it electrically high": output, HIGH, pull-up off (R82, R85). -/
def Line.driveHigh (_l : Line) : Line := ⟨.output, .high, false⟩

/-- "then low": only the driven level changes (R83, R86). -/
def Line.driveLow (l : Line) : Line := { l with out := .low }

/-- "then return it to input mode with pull-up enabled"; the output level is kept (R84, R87). -/
def Line.release (l : Line) : Line := { l with dir := .input, pu := true }

/-- Apply a pin action to line `k` of reader `q`. -/
def State.actOnLine (s : State) (q : Slot) (k : LineSel) (f : Line → Line) : State :=
  s.setReader q ((s.reader q).setLine k (f ((s.reader q).line k)))

/-- Zero `cnt` and `code` of reader `q` and clear `busy`, in one step (R89). -/
def State.clearReader (s : State) (q : Slot) : State :=
  { s.setReader q { s.reader q with code := 0, cnt := 0 } with busy := false }

/-- "if seq_phase = 7 then busy <- 0 else seq_phase <- seq_phase + 1" (R81). -/
def State.advance (s : State) : State :=
  if s.seqPhase = 7 then { s with busy := false } else { s with seqPhase := s.seqPhase + 1 }

/-- One step of the sequencer: the micro-operation's action on reader `r = seq_r`, then the advance (R81).
R15 keeps `seq_r` below `N_READERS`; where it is not, the model stops (log 10). -/
def microStep (act : Slot → State → State) (s : State) : Host.Outcome State Fault Refusal :=
  match readerSlot s.cfg s.seqR with
  | none => .fault .seqReaderAbsent
  | some q => .next (act q s).advance

/-- "busy <- 1; seq_r <- r; seq_phase <- 0" (R80). -/
def State.startInit (s : State) (r : ReaderIx) : State :=
  { s with busy := true, seqR := r, seqPhase := 0 }

/-! ### The register selector space (20_memory.md) -/

/-- `MemRead(addr, n)` (R9, R30, R31): the `n` bits of the register the selector names; nothing where the
selector is reserved. -/
def memRead (s : State) (addr : Selector) (n : Nat) : Option Nat :=
  (readerSlot s.cfg (addr.extractLsb' 1 2)).map fun q =>
    trunc n (if addr.extractLsb' 0 1 = 0 then (s.reader q).code else (s.reader q).cnt)

/-- A host read: the value is returned, a reserved selector is refused, nothing else changes (R34, R37). -/
def readStep (addr : Selector) (n : Nat) (s : State) : State :=
  match memRead s addr n with
  | none => s.raise (.refuse .badReader)
  | some v => s.returns v

/-! ### Taking the next stimulus word (R54, R38) -/

/-- The state in which the next operation runs: the words after it still to come, and what the step
before handed out cleared (log 7). -/
def State.taking (s : State) (rest : List StimulusWord) : State :=
  { s with stimuli := rest, outcome := .ok, returned := none, delayReq := none }

/-- Take the next stimulus word, if one has come. -/
def fetch (s : State) : Option (StimulusWord × State) :=
  match s.stimuli with
  | [] => none
  | w :: rest => some (w, s.taking rest)

/-- Arrange that the next step runs this code: a stimulus word is put before the words still to come; a
phase is performed by a `SEQ` word while the sequencer is busy at that phase (R60, R81, log 11). -/
def State.place (s : State) (c : Code) : State :=
  match c with
  | .stimulus w => { s with stimuli := w :: s.stimuli }
  | .phase p => { s with busy := true, seqPhase := p, stimuli := Instr.seq.word :: s.stimuli }

end Sys2Proof.Machine
end

