-- ==== Sys2Proof/Machine/EdgeHandlers.lean ====
section
/-! DEFINITION. The edge operations (40_edge_handlers.md). -/

namespace Sys2Proof.Machine

/-- `EDGE0 r, x`, the source's `onZeroEdge(readerId)` (R71). -/
def execEdge0 (r : ReaderIx) (x : Level) (s : State) : Host.Outcome State Fault Refusal :=
  .next (edgeStep .zero r x s)

/-- `EDGE1 r, x`, the source's `onOneEdge(readerId)` (R72). -/
def execEdge1 (r : ReaderIx) (x : Level) (s : State) : Host.Outcome State Fault Refusal :=
  .next (edgeStep .one r x s)

end Sys2Proof.Machine
end

