-- ==== Sys2Proof/Machine/HostAccess.lean ====
section
/-! DEFINITION. The host's reads (42_host_access.md). -/

namespace Sys2Proof.Machine

/-- `RDCODE r` (R100): `MemRead({r, 0}, CODE_W)`. -/
def execRdcode (r : ReaderIx) (s : State) : Host.Outcome State Fault Refusal :=
  .next (readStep (selector r 0) s.cfg.codeW s)

/-- `RDCNT r` (R101): `MemRead({r, 1}, COUNT_W)`. -/
def execRdcnt (r : ReaderIx) (s : State) : Host.Outcome State Fault Refusal :=
  .next (readStep (selector r 1) s.cfg.countW s)

end Sys2Proof.Machine
end

