-- ==== Sys2Proof/Machine/InitSequencer.lean ====
section
/-! DEFINITION. The initialization sequencer (41_init_sequencer.md): `INIT`, `SEQ` and the eight
micro-operations. A micro-operation's meaning is its whole atomic step, the sequencer's advance of R81
included ("no WLD state changes other than `seq_phase`", R88; log 11). -/

namespace Sys2Proof.Machine

/-- `INIT r` (R80): BadReader, then Busy, are refused (R61, R94). -/
def execInit (r : ReaderIx) (s : State) : Host.Outcome State Fault Refusal :=
  match readerSlot s.cfg r with
  | none => .next (s.raise (.refuse .badReader))
  | some _ => if s.busy then .next (s.raise (.refuse .busy)) else .next (s.startInit r)

/-- `Z_HIGH` (R82). -/
def execZHigh (s : State) : Host.Outcome State Fault Refusal :=
  microStep (fun q s => s.actOnLine q .zero Line.driveHigh) s

/-- `Z_LOW` (R83). -/
def execZLow (s : State) : Host.Outcome State Fault Refusal :=
  microStep (fun q s => s.actOnLine q .zero Line.driveLow) s

/-- `Z_REL` (R84). -/
def execZRel (s : State) : Host.Outcome State Fault Refusal :=
  microStep (fun q s => s.actOnLine q .zero Line.release) s

/-- `O_HIGH` (R85). -/
def execOHigh (s : State) : Host.Outcome State Fault Refusal :=
  microStep (fun q s => s.actOnLine q .one Line.driveHigh) s

/-- `O_LOW` (R86). -/
def execOLow (s : State) : Host.Outcome State Fault Refusal :=
  microStep (fun q s => s.actOnLine q .one Line.driveLow) s

/-- `O_REL` (R87). -/
def execORel (s : State) : Host.Outcome State Fault Refusal :=
  microStep (fun q s => s.actOnLine q .one Line.release) s

/-- `SETTLE` (R88): `DelayRequest(SETTLE_DELAY)`. -/
def execSettle (s : State) : Host.Outcome State Fault Refusal :=
  microStep (fun _ s => s.requestDelay s.cfg.settleDelay) s

/-- `CLEAR` (R89). -/
def execClear (s : State) : Host.Outcome State Fault Refusal :=
  microStep (fun q s => s.clearReader q) s

/-- `SEQ` (R81): refused while not busy, else the micro-operation numbered `seq_phase`. -/
def execSeq (s : State) : Host.Outcome State Fault Refusal :=
  if s.busy then
    match MicroOp.ofPhase s.seqPhase with
    | .zHigh => execZHigh s
    | .zLow => execZLow s
    | .zRel => execZRel s
    | .oHigh => execOHigh s
    | .oLow => execOLow s
    | .oRel => execORel s
    | .settle => execSettle s
    | .clear => execClear s
  else .next (s.raise (.refuse .notBusy))

end Sys2Proof.Machine
end

