-- ==== Sys2Proof/Machine/Dispatch.lean ====
section
/-! DEFINITION. One arm per instruction. -/

namespace Sys2Proof.Machine

def exec (i : Instr) (s : State) : Host.Outcome State Fault Refusal :=
  match i with
  -- stimulus words (30_encoding.md R58)
  | .init r => Sys2Proof.Machine.execInit r s
  | .edge0 r x => Sys2Proof.Machine.execEdge0 r x s
  | .edge1 r x => Sys2Proof.Machine.execEdge1 r x s
  | .rdcode r => Sys2Proof.Machine.execRdcode r s
  | .rdcnt r => Sys2Proof.Machine.execRdcnt r s
  | .seq => Sys2Proof.Machine.execSeq s
  -- micro-operations (30_encoding.md R60)
  | .zHigh => Sys2Proof.Machine.execZHigh s
  | .zLow => Sys2Proof.Machine.execZLow s
  | .zRel => Sys2Proof.Machine.execZRel s
  | .oHigh => Sys2Proof.Machine.execOHigh s
  | .oLow => Sys2Proof.Machine.execOLow s
  | .oRel => Sys2Proof.Machine.execORel s
  | .settle => Sys2Proof.Machine.execSettle s
  | .clear => Sys2Proof.Machine.execClear s

end Sys2Proof.Machine
end

