-- ==== Sys2Proof/WellFormed.lean ====
section
/-! DEFINITION. Which instructions are well formed in a configuration: the reader they name exists
(30_encoding.md R52, R61 case 4). -/

namespace Sys2Proof

/-- `r < N_READERS`, and never `r = 3` ("this includes `r = 3` for every configuration", R61). -/
def Config.hasReader (cfg : Config) (r : ReaderIx) : Bool :=
  decide (r.toNat < cfg.nReaders) && decide (r ≠ 3)

/-- The reader an instruction names in its word, if it names one (formats H and E, R55, R56). -/
def Instr.reader? : Instr → Option ReaderIx
  | .init r => some r
  | .edge0 r _ => some r
  | .edge1 r _ => some r
  | .rdcode r => some r
  | .rdcnt r => some r
  | .seq => none
  | .zHigh => none
  | .zLow => none
  | .zRel => none
  | .oHigh => none
  | .oLow => none
  | .oRel => none
  | .settle => none
  | .clear => none

/-- An instruction is well formed when the reader it names exists. -/
def Instr.wellFormed (cfg : Config) (i : Instr) : Bool :=
  match i.reader? with
  | some r => cfg.hasReader r
  | none => true

end Sys2Proof
end

