-- ==== Sys2Proof/Machine/Step.lean ====
section
/-! DEFINITION. One step of the WLD: one stimulus word (20_memory.md R38, 30_encoding.md R54). -/

namespace Sys2Proof.Machine

/-- One step. A configuration that is not well formed is refused (R6). With no stimulus the WLD does
nothing ("executes nothing after reset until a stimulus arrives", R25). A reserved word is the outcome
`Refuse(Reserved)` (R61 cases 1 to 3). -/
def step (s : State) : Host.Outcome State Fault Refusal :=
  if s.cfg.WellFormed then
    match fetch s with
    | none => .next s
    | some (w, s') =>
      match decodeStimulus w with
      | .ok i => exec i s'
      | .error _ => .next (s'.raise (.refuse .reserved))
  else .refused .illFormedConfig

/-- `s` with the opcode table's bits `w` placed so that the next step runs them (log 6, log 11). -/
def State.withFetchWord (s : State) (nbits w : Nat) : State :=
  match tableCode nbits w with
  | some c => s.place c
  | none => s

end Sys2Proof.Machine
end

