-- ==== Sys2Proof/Machine/Assembler.lean ====
section
/-! DEFINITION. The assembler syntax (30_encoding.md R63, R64): one line of text to instructions, and an
instruction to its text. Text is a list of characters. How blanks are read is a DESIGN CHOICE (log 15). -/

namespace Sys2Proof.Machine

/-- A line without its comment: `;` starts a comment (R63). -/
def stripComment (line : List Char) : List Char := line.takeWhile (· ≠ ';')

/-- Text without blanks at either end. -/
def trimBlanks (t : List Char) : List Char :=
  ((t.dropWhile (· = ' ')).reverse.dropWhile (· = ' ')).reverse

/-- The pieces of a text between the separators `c`. -/
def piecesOf (c : Char) : List Char → List (List Char)
  | [] => [[]]
  | a :: rest =>
    if a = c then [] :: piecesOf c rest
    else
      match piecesOf c rest with
      | [] => [[a]]
      | p :: ps => (a :: p) :: ps

/-- A reader operand: "a decimal digit 0, 1 or 2" (R63). -/
def readReader (t : List Char) : Option ReaderIx :=
  if t = ['0'] then some 0 else if t = ['1'] then some 1 else if t = ['2'] then some 2 else none

/-- A level operand: `L` or `H` (R63). -/
def readLevel (t : List Char) : Option Level :=
  if t = ['L'] then some .low else if t = ['H'] then some .high else none

/-- One bit of a `FRAME` (R64). -/
def readBit (t : List Char) : Option Bool :=
  if t = ['0'] then some false else if t = ['1'] then some true else none

/-- The bits of a `FRAME`, separated by blanks (R64). -/
def readBits (t : List Char) : Option (List Bool) :=
  ((piecesOf ' ' t).filter (· ≠ [])).mapM readBit

/-- The operations and pseudo-instructions whose one operand is a reader. -/
def withReader (mnemonic : List Char) (r : ReaderIx) : Option (List Instr) :=
  if mnemonic = "INIT".toList then some [.init r]
  else if mnemonic = "RDCODE".toList then some [.rdcode r]
  else if mnemonic = "RDCNT".toList then some [.rdcnt r]
  else if mnemonic = "BIT0".toList then some (Pseudo.bit0 r).expand
  else if mnemonic = "BIT1".toList then some (Pseudo.bit1 r).expand
  else if mnemonic = "SPUR0".toList then some (Pseudo.spur0 r).expand
  else if mnemonic = "SPUR1".toList then some (Pseudo.spur1 r).expand
  else if mnemonic = "INITW".toList then some (Pseudo.initw r).expand
  else if mnemonic = "RD".toList then some (Pseudo.rd r).expand
  else none

/-- The operations and pseudo-instructions with a second operand. -/
def withSecond (mnemonic : List Char) (r : ReaderIx) (second : List Char) : Option (List Instr) :=
  if mnemonic = "EDGE0".toList then (readLevel second).map fun x => [.edge0 r x]
  else if mnemonic = "EDGE1".toList then (readLevel second).map fun x => [.edge1 r x]
  else if mnemonic = "FRAME".toList then (readBits second).map fun bits => (Pseudo.frame r bits).expand
  else none

/-- Assemble one line: no instruction for a blank or comment line, an operation's or pseudo-instruction's
instructions otherwise, and none where the text is not of the syntax. -/
def assembleLine (line : List Char) : Option (List Instr) :=
  let body := trimBlanks (stripComment line)
  let mnemonic := body.takeWhile (· ≠ ' ')
  let operands := trimBlanks (body.dropWhile (· ≠ ' '))
  if body = [] then some []
  else
    match (piecesOf ',' operands).map trimBlanks with
    | [] => none
    | [a] =>
      if a = [] then (if mnemonic = "SEQ".toList then some [.seq] else none)
      else (readReader a).bind (withReader mnemonic)
    | [a, b] => (readReader a).bind fun r => withSecond mnemonic r b
    | _ :: _ :: _ :: _ => none

/-- The digit of a reader; reader 3 has no syntax (R63). -/
def readerDigit (r : ReaderIx) : Option Char :=
  if r = 0 then some '0' else if r = 1 then some '1' else if r = 2 then some '2' else none

/-- The letter of a level (R63). -/
def levelLetter : Level → Char
  | .low => 'L'
  | .high => 'H'

/-- The text of an instruction in the table of R63; a micro-operation has none. -/
def textOf : Instr → Option (List Char)
  | .init r => (readerDigit r).map fun d => "INIT ".toList ++ [d]
  | .edge0 r x => (readerDigit r).map fun d => "EDGE0 ".toList ++ [d, ',', ' ', levelLetter x]
  | .edge1 r x => (readerDigit r).map fun d => "EDGE1 ".toList ++ [d, ',', ' ', levelLetter x]
  | .rdcode r => (readerDigit r).map fun d => "RDCODE ".toList ++ [d]
  | .rdcnt r => (readerDigit r).map fun d => "RDCNT ".toList ++ [d]
  | .seq => some "SEQ".toList
  | .zHigh => none
  | .zLow => none
  | .zRel => none
  | .oHigh => none
  | .oLow => none
  | .oRel => none
  | .settle => none
  | .clear => none

end Sys2Proof.Machine
end

