-- ==== Sys2Proof/Safety.lean ====
section
/-! DEFINITION. What counts as a safe state and a good run, the invariant of the machine, and the words
the claims use for traces of stimulus words. -/

namespace Sys2Proof.Machine

/-- No fault recorded, nothing refused (R24): the premise of a claim about a good run. -/
abbrev State.Good (s : State) : Prop := s.faulted = false ∧ s.refused = false

/-- Every data register fits its width (R11, R12). -/
abbrev State.InRange (s : State) : Prop :=
  ∀ q : Slot, (s.reader q).code < 2 ^ s.cfg.codeW ∧ (s.reader q).cnt < 2 ^ s.cfg.countW

/-- While the sequencer is busy, `seq_r` names a reader that exists (R15). -/
abbrev State.SeqOk (s : State) : Prop := s.busy = true → (readerSlot s.cfg s.seqR).isSome = true

/-- A line that the sequencer is not driving: an input whose output level is LOW (R25, R93). -/
abbrev Line.AtRest (l : Line) : Prop := l.dir = .input ∧ l.out = .low

/-- What line `k` of the reader under initialization holds when the next micro-operation has number `p`:
the table of R93. -/
abbrev Line.AtPhase (k : LineSel) (p : Phase) (l : Line) : Prop :=
  match k with
  | .zero =>
    if p = 0 then l.AtRest
    else if p = 1 then l = ⟨.output, .high, false⟩
    else if p = 2 then l = ⟨.output, .low, false⟩
    else l = ⟨.input, .low, true⟩
  | .one =>
    if p < 4 then l.AtRest
    else if p = 4 then l = ⟨.output, .high, false⟩
    else if p = 5 then l = ⟨.output, .low, false⟩
    else l = ⟨.input, .low, true⟩

/-- The lines of the reader under initialization are as the table of R93 says, all other lines are at
rest. -/
abbrev State.LinesOk (s : State) : Prop :=
  ∀ q : Slot,
    if s.initializing (slotIx q) = true then
      (s.reader q).zeroLine.AtPhase .zero s.seqPhase ∧ (s.reader q).oneLine.AtPhase .one s.seqPhase
    else (s.reader q).zeroLine.AtRest ∧ (s.reader q).oneLine.AtRest

/-- The invariant of the machine. -/
abbrev State.Inv (s : State) : Prop :=
  s.cfg.WellFormed ∧ s.InRange ∧ s.SeqOk ∧ s.LinesOk

/-- The hardware state of `t` is that of `s`; the marks and the model's own fields may differ. -/
abbrev State.SameHardware (s t : State) : Prop :=
  t.cfg = s.cfg ∧ t.readers = s.readers ∧ t.busy = s.busy ∧ t.seqR = s.seqR ∧ t.seqPhase = s.seqPhase

/-- The instruction is an edge of reader `r`, valid or spurious (R91). -/
def edgeOf (r : ReaderIx) (i : Instr) : Bool :=
  match agentOf i with
  | .handler r' _ => r' == r
  | .host => false

/-- The bit an instruction appends to reader `r` when its lines are inputs: that of an edge of `r` whose
outside level is LOW. -/
def validBit (r : ReaderIx) : Instr → Option Bool
  | .edge0 r' x => if r' = r ∧ x = .low then some false else none
  | .edge1 r' x => if r' = r ∧ x = .low then some true else none
  | .init _ | .rdcode _ | .rdcnt _ | .seq => none
  | .zHigh | .zLow | .zRel | .oHigh | .oLow | .oRel | .settle | .clear => none

/-- A test on the instruction a stimulus word decodes to; false of a reserved word. -/
def onWord (f : Instr → Bool) (w : StimulusWord) : Bool :=
  match decodeStimulus w with
  | .ok i => f i
  | .error _ => false

/-- The bit values of the valid edges of reader `r` in a trace, in arrival order (R22, R39). -/
def traceBits (r : ReaderIx) (ws : List StimulusWord) : List Bool :=
  ws.filterMap fun w =>
    match decodeStimulus w with
    | .ok i => validBit r i
    | .error _ => none

/-- `Σ bit_i * 2^(N-1-i)` for i = 0 .. N-1 (R22, R35). -/
def frameValue (bits : List Bool) : Nat :=
  ∑ i : Fin bits.length, bits[i].toNat * 2 ^ (bits.length - 1 - i.val)

/-- `n` steps in a row, from `s`: a run stops where a step stops. -/
def run : Nat → State → Host.Outcome State Fault Refusal
  | 0, s => .next s
  | n + 1, s =>
    match step s with
    | .next t => run n t
    | .fault f => .fault f
    | .refused r => .refused r

end Sys2Proof.Machine
end

