-- ==== Sys2Proof/Certificates/Slice0/Obligations.lean ====
section
/-! DEFINITION. The statements about the Wiegand Line Decoder. Each holds in every configuration (the
configuration is part of the state) unless it names one. "[D<n>]" says that a clause rests on that
decision of 92_eei_decisions.md, the spec's own choice where its source is open. -/

open Sys2Proof Sys2Proof.Machine

/-! ### Encodings -/

/-- Words and phases written out from the opcode map (R58) and the phase table (R60) decode to their
instructions [D8, D11]. -/
def Obligations.WordsDecodeAsTheSpecWritesThem : Prop :=
  decode (.stimulus 0b00010010) = .ok (.init 2) ∧
  decode (.stimulus 0b00100000) = .ok (.edge0 0 .low) ∧
  decode (.stimulus 0b00110101) = .ok (.edge1 1 .high) ∧
  decode (.stimulus 0b01000001) = .ok (.rdcode 1) ∧
  decode (.stimulus 0b01010010) = .ok (.rdcnt 2) ∧
  decode (.stimulus 0b01100000) = .ok .seq ∧
  decode (.phase 0b000) = .ok .zHigh ∧ decode (.phase 0b001) = .ok .zLow ∧
  decode (.phase 0b010) = .ok .zRel ∧ decode (.phase 0b011) = .ok .oHigh ∧
  decode (.phase 0b100) = .ok .oLow ∧ decode (.phase 0b101) = .ok .oRel ∧
  decode (.phase 0b110) = .ok .settle ∧ decode (.phase 0b111) = .ok .clear

/-- Decoding the code of any instruction, with any operands, gives the instruction back. -/
def Obligations.DecodeOfEncodeIsTheInstruction : Prop := ∀ i : Instr, decode (encode i) = .ok i

/-- Each code that decodes is the code of the instruction it decodes to: one word, one meaning. -/
def Obligations.EncodeOfDecodeIsTheCode : Prop :=
  ∀ (c : Code) (i : Instr), decode c = .ok i → encode i = c

/-- R58's match and mask rows select exactly the words that cases 1 to 3 of R61 let through, and at most
one row selects a word [D8]. -/
def Obligations.OpcodeRowsSelectExactlyTheAcceptedWords : Prop :=
  ∀ w : StimulusWord,
    (opcodeRows.any (·.selects w) = (decodeStimulus w).toBool) ∧
    (opcodeRows.filter (·.selects w)).length ≤ 1

/-- The number of words accepted, reader range included, with 3, 2 and 1 readers
(95_test_vectors.md section 2.4). -/
def Obligations.AcceptedWordCounts : Prop :=
  ∀ cfg : Config,
    let accepted := ((List.range 256).filter fun n => onWord (·.wellFormed cfg) (BitVec.ofNat 8 n)).length
    (cfg.nReaders = 3 → accepted = 22) ∧ (cfg.nReaders = 2 → accepted = 15) ∧
    (cfg.nReaders = 1 → accepted = 8)

/-- The operands of an edge word are `r = w[1:0]` and `x = w[2]`, and bit 4 of the word is the bit value
and the line index (R59) [D8]. -/
def Obligations.EdgeWordOperandsAndBitFour : Prop :=
  ∀ (w : StimulusWord) (r : ReaderIx) (x : Level) (k : LineSel), decodeStimulus w = .ok (k.edge r x) →
    r = w.extractLsb' 0 2 ∧ x.bit = w.extractLsb' 2 1 ∧ k.index = w.extractLsb' 4 1 ∧
    k.bitValue = w.getLsbD 4

/-- The assembler reads the text of the syntax table of R63 as the instruction it stands for, and every
instruction of readers 0 to 2 that has a stimulus word has a text [D26, log 15]. -/
def Obligations.AssemblerReadsTheSyntaxTable : Prop :=
  (∀ (i : Instr) (text : List Char), textOf i = some text → assembleLine text = some [i]) ∧
  (∀ (i : Instr) (w : StimulusWord), encode i = .stimulus w → i.reader? ≠ some 3 → (textOf i).isSome = true)

/-- The words of the seven pseudo-instructions, for every reader (R64) [D26]. -/
def Obligations.PseudoInstructionsExpand : Prop :=
  ∀ (r : ReaderIx) (bits : List Bool),
    let r8 := r.setWidth 8
    (Pseudo.bit0 r).words = [0x20 + r8] ∧ (Pseudo.bit1 r).words = [0x30 + r8] ∧
    (Pseudo.spur0 r).words = [0x24 + r8] ∧ (Pseudo.spur1 r).words = [0x34 + r8] ∧
    (Pseudo.initw r).words = (0x10 + r8) :: List.replicate 8 0x60 ∧
    (Pseudo.rd r).words = [0x50 + r8, 0x40 + r8] ∧
    (Pseudo.frame r bits).words = bits.map fun b => if b then 0x30 + r8 else 0x20 + r8

/-! ### The step -/

/-- When the next stimulus word decodes to an instruction, a step is that instruction's `exec` in the
state whose remaining words are the rest and whose outputs are cleared (log 6, log 7). -/
def Obligations.StepRunsTheDecodedInstruction : Prop :=
  ∀ (s : State) (w : StimulusWord) (rest : List StimulusWord) (i : Instr),
    s.cfg.WellFormed → s.stimuli = w :: rest → decodeStimulus w = .ok i →
    step s = exec i { s with stimuli := rest, outcome := .ok, returned := none, delayReq := none }

/-- With no stimulus the WLD does nothing (R25: it "executes nothing after reset until a stimulus
arrives"). That a step then answers the same state is the model's choice (log 6). -/
def Obligations.StepWithoutStimulusChangesNothing : Prop :=
  ∀ s : State, s.cfg.WellFormed → s.stimuli = [] → step s = .next s

/-- A configuration is well formed exactly as R6 says [D6 for the pins' being distinct], and a step in any
other one is refused. R6 says that a model refuses such a configuration and not when: that `step` does it is
the model's choice (log 9). -/
def Obligations.IllFormedConfigurationIsRefused : Prop :=
  ∀ s : State,
    (s.cfg.WellFormed ↔
      1 ≤ s.cfg.nReaders ∧ s.cfg.nReaders ≤ 3 ∧ 32 ≤ s.cfg.codeW ∧ 6 ≤ s.cfg.countW ∧
        (s.cfg.lines.flatMap fun p => [p.zero, p.one]).length = 2 * s.cfg.nReaders ∧
        (s.cfg.lines.flatMap fun p => [p.zero, p.one]).Pairwise (· ≠ ·)) ∧
    (¬ s.cfg.WellFormed ↔ step s = .refused .illFormedConfig)

/-- A word that cases 1 to 3 of R61 reserve changes no hardware state, returns nothing, sets the mark
`refused`, and the run goes on [D21, log 8]. -/
def Obligations.ReservedWordIsRefusedWithoutEffect : Prop :=
  ∀ (s : State) (w : StimulusWord) (rest : List StimulusWord),
    s.cfg.WellFormed → s.stimuli = w :: rest →
    (opOf w = 0 ∨ 7 ≤ opOf w ∨ zOf w = 1 ∨ (opOf w = 6 ∧ (xOf w = 1 ∨ rOf w ≠ 0)) ∨
      ((opOf w = 1 ∨ opOf w = 4 ∨ opOf w = 5) ∧ xOf w = 1)) →
    ∃ t, step s = .next t ∧ s.SameHardware t ∧ t.outcome = .refuse .reserved ∧ t.refused = true ∧
      t.faulted = s.faulted ∧ t.returned = none ∧ t.delayReq = none ∧ t.stimuli = rest

/-- An instruction that names a reader at or above `N_READERS`, or reader 3, changes no hardware state
and is refused as BadReader, busy or not (R61 case 4, R112, R119) [D21, log 8]. -/
def Obligations.AbsentReaderIsRefusedWithoutEffect : Prop :=
  ∀ (s : State) (i : Instr) (r : ReaderIx),
    i.reader? = some r → (s.cfg.nReaders ≤ r.toNat ∨ r = 3) →
    exec i s = .next { s with outcome := .refuse .badReader, refused := true }

/-! ### Edge operations -/

/-- A valid edge (own line sampled LOW, the reader not under initialization) shifts the line's bit into
`code` and counts it, and changes nothing else: `EDGE0` and `EDGE1` (R71 to R74) [D3, D4]. -/
def Obligations.ValidEdgeAppendsAndCounts : Prop :=
  ∀ (s : State) (r : ReaderIx) (x : Level) (q : Slot),
    readerSlot s.cfg r = some q → (s.busy = false ∨ s.seqR ≠ r) →
    (sample s q .zero x = .low →
      exec (.edge0 r x) s = .next (s.setReader q { s.reader q with
        code := (2 * (s.reader q).code) % 2 ^ s.cfg.codeW
        cnt := min ((s.reader q).cnt + 1) (2 ^ s.cfg.countW - 1) })) ∧
    (sample s q .one x = .low →
      exec (.edge1 r x) s = .next (s.setReader q { s.reader q with
        code := (2 * (s.reader q).code + 1) % 2 ^ s.cfg.codeW
        cnt := min ((s.reader q).cnt + 1) (2 ^ s.cfg.countW - 1) }))

/-- The bit a valid edge contributes is 0 on the zero-line and 1 on the one-line, whatever the operands
and the sampled level's source (R51). -/
def Obligations.EdgeBitIsFixedByTheLine : Prop :=
  ∀ (s : State) (r : ReaderIx) (x : Level) (q : Slot) (k : LineSel),
    s.cfg.WellFormed → readerSlot s.cfg r = some q → (s.busy = false ∨ s.seqR ≠ r) →
    sample s q k x = .low →
    ∃ t, exec (k.edge r x) s = .next t ∧
      (t.reader q).code.testBit 0 = decide (k = .one)

/-- A spurious edge succeeds and changes no state, on either line; with the line an input, that is the
outside level HIGH (R111). -/
def Obligations.SpuriousEdgeChangesNothing : Prop :=
  ∀ (s : State) (r : ReaderIx) (x : Level) (q : Slot) (k : LineSel),
    readerSlot s.cfg r = some q → (s.busy = false ∨ s.seqR ≠ r) →
    (sample s q k x = .high → exec (k.edge r x) s = .next s) ∧
    (((s.reader q).line k).dir = .input → (sample s q k x = .high ↔ x = .high))

/-- An edge of the reader under initialization, valid or spurious, changes no hardware state and sets the
mark `faulted` (R78, R112) [D21, log 8]. -/
def Obligations.EdgeOfReaderUnderInitializationIsAFault : Prop :=
  ∀ (s : State) (r : ReaderIx) (x : Level) (k : LineSel),
    (readerSlot s.cfg r).isSome = true → s.busy = true → s.seqR = r →
    exec (k.edge r x) s = .next { s with outcome := .fault .initRace, faulted := true }

/-- The sampler reads the driven level of the handler's own line while the WLD drives it, and the outside
level otherwise; the pull-up and the other line have no part in it (R70) [D10, D27]. -/
def Obligations.SamplerReadsDrivenElseOutsideLevel : Prop :=
  ∀ (s : State) (q : Slot) (x : Level),
    sample s q .zero x =
      (if (s.reader q).zeroLine.dir = .output then (s.reader q).zeroLine.out else x) ∧
    sample s q .one x = (if (s.reader q).oneLine.dir = .output then (s.reader q).oneLine.out else x)

/-- `Append` is a shift with the new bit in bit 0; bits at and above `CODE_W` are dropped (R73) [D3]. -/
def Obligations.AppendIsAShiftThatDropsTheTopBit : Prop :=
  ∀ (cfg : Config) (c : Nat) (b : Bool),
    append cfg c b = ((c <<< 1) ||| b.toNat) % 2 ^ cfg.codeW ∧
    ∀ j, (append cfg c b).testBit j =
      (decide (j < cfg.codeW) && (if j = 0 then b else c.testBit (j - 1)))

/-- `Inc` adds one below the maximum, stays at it, and never decreases a count that fits (R74) [D4]. -/
def Obligations.IncrementSaturates : Prop :=
  ∀ (cfg : Config) (n : Nat),
    (n < 2 ^ cfg.countW - 1 → inc cfg n = n + 1) ∧
    (2 ^ cfg.countW - 1 ≤ n → inc cfg n = 2 ^ cfg.countW - 1) ∧
    (n < 2 ^ cfg.countW → n ≤ inc cfg n ∧ inc cfg n < 2 ^ cfg.countW)

/-- The reader's state machine (R76): a valid edge leads to ACCUMULATING with the registers of its row; a
spurious edge changes nothing; CLEAR leads to IDLE with both registers 0; every other step leaves the
registers alone; and nothing but CLEAR of this reader leads from ACCUMULATING to IDLE. -/
def Obligations.ReaderStateTransitions : Prop :=
  ∀ (s : State) (r : ReaderIx) (q : Slot),
    s.cfg.WellFormed → readerSlot s.cfg r = some q →
    (∀ k x, (s.busy = false ∨ s.seqR ≠ r) → sample s q k x = .low →
      ∃ t, exec (k.edge r x) s = .next t ∧ (t.reader q).fsm = .accumulating ∧
        (t.reader q).code = append s.cfg (s.reader q).code k.bitValue ∧
        ((s.reader q).fsm = .idle → (t.reader q).cnt = 1) ∧
        ((s.reader q).fsm = .accumulating → (t.reader q).cnt = inc s.cfg (s.reader q).cnt)) ∧
    (∀ k x, (s.busy = false ∨ s.seqR ≠ r) → sample s q k x = .high →
      exec (k.edge r x) s = .next s) ∧
    (s.busy = true → s.seqR = r → s.seqPhase = 7 →
      ∃ t, exec .seq s = .next t ∧ exec .clear s = .next t ∧ (t.reader q).fsm = .idle ∧
        (t.reader q).code = 0 ∧ (t.reader q).cnt = 0) ∧
    (∀ i t, exec i s = .next t → edgeOf r i = false →
      ¬ (s.seqR = r ∧ (i = .clear ∨ (i = .seq ∧ s.seqPhase = 7))) →
      (t.reader q).code = (s.reader q).code ∧ (t.reader q).cnt = (s.reader q).cnt ∧
        (t.reader q).fsm = (s.reader q).fsm) ∧
    (∀ i t, exec i s = .next t → (s.reader q).fsm = .accumulating → (t.reader q).fsm = .idle →
      s.seqR = r ∧ (i = .clear ∨ (i = .seq ∧ s.busy = true ∧ s.seqPhase = 7)))

/-- The layout of `code` (R22), along any trace: from 0/0, with no `INIT` of this reader in the trace,
whatever other words stand between. With N valid edges, `code` is the sum of the bit values with the first
bit most significant; bit 0 is the most recent pulse and the bits N and above are 0; beyond `CODE_W` bits
the last ones remain (R73) [D3]. The trace may hold refused and faulted words, past which the run goes on:
that is the model's reading (log 8). -/
def Obligations.AccumulatorHoldsTheBitsInArrivalOrder : Prop :=
  ∀ (s : State) (r : ReaderIx) (q : Slot) (ws rest : List StimulusWord),
    s.Inv → readerSlot s.cfg r = some q → (s.busy = false ∨ s.seqR ≠ r) →
    (s.reader q).code = 0 → (s.reader q).cnt = 0 →
    s.stimuli = ws ++ rest → (∀ w ∈ ws, decodeStimulus w ≠ .ok (.init r)) →
    ∃ t, run ws.length s = .next t ∧ t.stimuli = rest ∧
      (let bits := traceBits r ws
       let n := bits.length
       (n ≤ s.cfg.codeW →
          (t.reader q).code = ∑ i : Fin n, bits[i].toNat * 2 ^ (n - 1 - i.val)) ∧
       (s.cfg.codeW < n →
          (t.reader q).code = frameValue (bits.drop (n - s.cfg.codeW))) ∧
       (∀ j, (t.reader q).code.testBit j =
          (decide (j < s.cfg.codeW) && decide (j < n) && bits.getD (n - 1 - j) false)))

/-- From ANY contents, the unspecified ones of power-on included (95_test_vectors.md V18), and along any
trace without `INIT` of this reader: the bits of the valid edges are appended in order, what passes `CODE_W`
bits is lost, and the count grows by their number up to its limit (R71 to R74) [D3, D4]. The trace may hold
refused and faulted words, past which the run goes on: that is the model's reading (log 8). -/
def Obligations.TraceAppendsItsValidBitsToAnyContents : Prop :=
  ∀ (s : State) (r : ReaderIx) (q : Slot) (ws rest : List StimulusWord),
    s.Inv → readerSlot s.cfg r = some q → (s.busy = false ∨ s.seqR ≠ r) →
    s.stimuli = ws ++ rest → (∀ w ∈ ws, decodeStimulus w ≠ .ok (.init r)) →
    ∃ t, run ws.length s = .next t ∧
      (t.reader q).code =
        ((s.reader q).code * 2 ^ (traceBits r ws).length + frameValue (traceBits r ws)) % 2 ^ s.cfg.codeW ∧
      (t.reader q).cnt = min ((s.reader q).cnt + (traceBits r ws).length) (2 ^ s.cfg.countW - 1)

/-! ### Initialization -/

/-- `INIT r` of a reader that exists, while not busy, starts the sequencer on it and changes nothing else
(R80) [D15]. -/
def Obligations.InitStartsTheSequencer : Prop :=
  ∀ (s : State) (r : ReaderIx),
    (readerSlot s.cfg r).isSome = true → s.busy = false →
    exec (.init r) s = .next { s with busy := true, seqR := r, seqPhase := 0 }

/-- `INIT` while busy and `SEQ` while not busy change no hardware state and are refused (R80, R81, R94)
[D15, D29, D21, log 8]. -/
def Obligations.InitWhileBusyAndSeqWhileIdleAreRefused : Prop :=
  (∀ (s : State) (r : ReaderIx), (readerSlot s.cfg r).isSome = true → s.busy = true →
    exec (.init r) s = .next { s with outcome := .refuse .busy, refused := true }) ∧
  (∀ s : State, s.busy = false →
    exec .seq s = .next { s with outcome := .refuse .notBusy, refused := true })

/-- `SEQ` while busy is the micro-operation numbered `seq_phase`; the phase advances by exactly 1 and
`busy` stays, but at phase 7 `busy` ends and the phase keeps its value (R81, R15) [D11, D15, D29]. That `exec`
of the micro-operation alone gives the same state, R81's advance included, is the model's choice (log 11). -/
def Obligations.SeqPerformsTheMicroOperationOfItsPhase : Prop :=
  ∀ s : State, s.busy = true → (readerSlot s.cfg s.seqR).isSome = true →
    ∃ (m : MicroOp) (t : State), m.phase = s.seqPhase ∧ exec .seq s = .next t ∧ exec m.instr s = .next t ∧
      t.seqR = s.seqR ∧
      (if s.seqPhase = 7 then t.busy = false ∧ t.seqPhase = 7
       else t.busy = true ∧ t.seqPhase.toNat = s.seqPhase.toNat + 1)

/-- `Z_HIGH` and `O_HIGH`: the line of reader `seq_r` becomes an output driven HIGH with the pull-up off, and
nothing else changes (R82, R85) but the phase, which advances (R81) [D11, D12, D13]. That the advance is part
of the micro-operation's meaning, which does not test `busy`, is the model's choice (log 11). -/
def Obligations.DriveHighMicroOperations : Prop :=
  ∀ (s : State) (q : Slot), readerSlot s.cfg s.seqR = some q →
    (s.seqPhase = 0 → exec .zHigh s = .next
      { s.setReader q { s.reader q with zeroLine := ⟨.output, .high, false⟩ } with seqPhase := 1 }) ∧
    (s.seqPhase = 3 → exec .oHigh s = .next
      { s.setReader q { s.reader q with oneLine := ⟨.output, .high, false⟩ } with seqPhase := 4 })

/-- `Z_LOW` and `O_LOW`: only the driven level of the line of reader `seq_r` changes, to LOW; a line driven
HIGH stays an output with the pull-up off, and its level falls (R83, R86). Their phases are 1 and 4 (R60)
[D11, D12], and the phase advances (R81). That the advance is part of the micro-operation's meaning, which
does not test `busy`, is the model's choice (log 11). -/
def Obligations.DriveLowMicroOperations : Prop :=
  ∀ (s : State) (q : Slot), readerSlot s.cfg s.seqR = some q →
    (s.seqPhase = 1 →
      exec .zLow s = .next
        { s.setReader q { s.reader q with zeroLine := { (s.reader q).zeroLine with out := .low } } with
          seqPhase := 2 }) ∧
    (s.seqPhase = 4 →
      exec .oLow s = .next
        { s.setReader q { s.reader q with oneLine := { (s.reader q).oneLine with out := .low } } with
          seqPhase := 5 }) ∧
    (∀ (k : LineSel) (t : State),
      (s.seqPhase = 1 ∧ k = .zero ∧ exec .zLow s = .next t) ∨
        (s.seqPhase = 4 ∧ k = .one ∧ exec .oLow s = .next t) →
      (s.reader q).line k = ⟨.output, .high, false⟩ →
      (t.reader q).line k = ⟨.output, .low, false⟩ ∧
        ∀ x, sample s q k x = .high ∧ sample t q k x = .low)

/-- `Z_REL` and `O_REL`: the line of reader `seq_r` becomes an input with the pull-up on and keeps its
output level, and nothing else changes (R84, R87) but the phase, which advances (R81) [D11, D12]. That the
advance is part of the micro-operation's meaning, which does not test `busy`, is the model's choice
(log 11). -/
def Obligations.ReleaseMicroOperations : Prop :=
  ∀ (s : State) (q : Slot), readerSlot s.cfg s.seqR = some q →
    (s.seqPhase = 2 → exec .zRel s = .next
      { s.setReader q { s.reader q with zeroLine := ⟨.input, (s.reader q).zeroLine.out, true⟩ } with
        seqPhase := 3 }) ∧
    (s.seqPhase = 5 → exec .oRel s = .next
      { s.setReader q { s.reader q with oneLine := ⟨.input, (s.reader q).oneLine.out, true⟩ } with
        seqPhase := 6 })

/-- `SETTLE` requests the delay `SETTLE_DELAY` and changes no state of the WLD other than `seq_phase`
(R88) [D16, log 13]; the phase advances by one (R81), as part of the micro-operation's meaning, which does not
test `busy` (the model's choice, log 11). -/
def Obligations.SettleRequestsTheDelay : Prop :=
  ∀ s : State, (readerSlot s.cfg s.seqR).isSome = true → s.seqPhase = 6 →
    exec .settle s = .next { s with seqPhase := 7, delayReq := some s.cfg.settleDelay }

/-- `CLEAR` zeroes `cnt` and `code` of reader `seq_r` and ends `busy` in one step; the pin control fields,
the other readers and the phase are not touched (R89, R20) [D14]. That the meaning does not test `busy` is the
model's choice (log 11). -/
def Obligations.ClearZeroesTheReader : Prop :=
  ∀ (s : State) (q : Slot), readerSlot s.cfg s.seqR = some q → s.seqPhase = 7 →
    exec .clear s = .next
      { s.setReader q { s.reader q with code := 0, cnt := 0 } with busy := false }

/-- Where `seq_r` names no reader, a micro-operation stops the model. R15 rules such states out and no run
reaches one: the stop is the model's own (log 10). -/
def Obligations.MicroOperationOnAbsentReaderStops : Prop :=
  ∀ (s : State), readerSlot s.cfg s.seqR = none →
    (∀ m : MicroOp, exec m.instr s = .fault .seqReaderAbsent) ∧
    (s.busy = true → exec .seq s = .fault .seqReaderAbsent)

/-- The invariant holds after power-on of every well-formed configuration with any contents that fit the
data registers, and after reset (R25; the contents 0 at reset are the model's choice, log 3). -/
def Obligations.InvariantHoldsAfterPowerOn : Prop :=
  (∀ (cfg : Config) (contents : Vector (Nat × Nat) 3), cfg.WellFormed →
    (∀ q : Slot, contents[q].1 < 2 ^ cfg.codeW ∧ contents[q].2 < 2 ^ cfg.countW) →
    (State.powerOn cfg contents).Inv) ∧
  State.reset.Inv

/-- From every state that meets the invariant a step answers a next state, and that state meets it: the
data registers fit their widths, a busy sequencer names a reader that exists, and the lines are as the
table of R93 says for the reader under initialization and at rest everywhere else. -/
def Obligations.StepKeepsTheInvariantAndNeverStops : Prop :=
  ∀ s : State, s.Inv → ∃ t, step s = .next t ∧ t.Inv

/-- A line is driven only during the initialization of its own reader, so an edge of any other reader
samples the outside level (R70, R93; 95_test_vectors.md V15). -/
def Obligations.LinesAreDrivenOnlyDuringTheirInitialization : Prop :=
  ∀ (s : State) (q : Slot) (k : LineSel), s.Inv →
    (((s.reader q).line k).dir = .output → s.busy = true ∧ s.seqR = slotIx q ∧
      (s.seqPhase = 1 ∨ s.seqPhase = 2 ∨ s.seqPhase = 4 ∨ s.seqPhase = 5)) ∧
    ((s.busy = false ∨ s.seqR ≠ slotIx q) → ∀ x, sample s q k x = x)

/-- The order of the whole sequence (R93), row by row of its table: the lines and registers of reader r and
`busy` after `INIT r` and n `SEQ` steps, for n from 0 to 8, whatever they held before [D11, D12, D13, D14]. -/
def Obligations.SequenceGoesThroughTheTableOfLines : Prop :=
  ∀ (s : State) (r : ReaderIx) (q : Slot) (n : Nat) (rest : List StimulusWord),
    s.cfg.WellFormed → readerSlot s.cfg r = some q → s.busy = false → n ≤ 8 →
    s.stimuli = (Instr.init r).word :: List.replicate n 0x60 ++ rest →
    ∃ t, run (n + 1) s = .next t ∧ t.stimuli = rest ∧ t.seqR = r ∧ t.busy = decide (n < 8) ∧
      t.reader q =
        { code := if n = 8 then 0 else (s.reader q).code
          cnt := if n = 8 then 0 else (s.reader q).cnt
          zeroLine :=
            if n = 0 then (s.reader q).zeroLine
            else if n = 1 then ⟨.output, .high, false⟩
            else if n = 2 then ⟨.output, .low, false⟩
            else ⟨.input, .low, true⟩
          oneLine :=
            if n ≤ 3 then (s.reader q).oneLine
            else if n = 4 then ⟨.output, .high, false⟩
            else if n = 5 then ⟨.output, .low, false⟩
            else ⟨.input, .low, true⟩ } ∧
      (∀ q', q' ≠ q → t.reader q' = s.reader q')

/-- The guarantee on completion (R90): after `INIT r` and its eight `SEQ` steps, with any other words
between them but no edge of reader r (R91), the reader is empty, its lines are inputs with the pull-up on,
the sequencer is free and no fault was recorded; every other reader's lines are unchanged and its registers
hold exactly what its own valid edges added (R73, R74) [D3, D4]. The words between may be refused ones, past
which the run goes on (log 8). -/
def Obligations.InitializationLeavesTheReaderArmed : Prop :=
  ∀ (s : State) (r : ReaderIx) (q : Slot) (between rest : List StimulusWord),
    s.Inv → readerSlot s.cfg r = some q → s.busy = false →
    (∀ w ∈ between, onWord (edgeOf r) w = false) →
    (between.filter fun w => w == 0x60).length = 7 →
    s.stimuli = (Instr.init r).word :: between ++ 0x60 :: rest →
    ∃ t, run (between.length + 2) s = .next t ∧ t.stimuli = rest ∧
      t.busy = false ∧ t.faulted = s.faulted ∧
      t.reader q = ⟨0, 0, ⟨.input, .low, true⟩, ⟨.input, .low, true⟩⟩ ∧
      ∀ (r' : ReaderIx) (q' : Slot), readerSlot s.cfg r' = some q' → q' ≠ q →
        (t.reader q').zeroLine = (s.reader q').zeroLine ∧ (t.reader q').oneLine = (s.reader q').oneLine ∧
        (t.reader q').code =
          ((s.reader q').code * 2 ^ (traceBits r' between).length + frameValue (traceBits r' between)) %
            2 ^ s.cfg.codeW ∧
        (t.reader q').cnt =
          min ((s.reader q').cnt + (traceBits r' between).length) (2 ^ s.cfg.countW - 1)

/-- Re-arm resets fully (R90): after K bits, an initialization and M bits, the reader is as one that
received exactly the M bits, cut to `CODE_W` bits and with the count at its limit where M is too large
(R73, R74) [D3, D4], and no mark is set on the way. -/
def Obligations.RearmLeavesNoResidue : Prop :=
  ∀ (s : State) (r : ReaderIx) (q : Slot) (before after : List Bool) (rest : List StimulusWord),
    s.Inv → readerSlot s.cfg r = some q → s.busy = false →
    s.stimuli = (Pseudo.frame r before).words ++ (Pseudo.initw r).words ++ (Pseudo.frame r after).words ++ rest →
    ∃ t, run (before.length + 9 + after.length) s = .next t ∧ t.stimuli = rest ∧
      t.reader q = ⟨frameValue after % 2 ^ s.cfg.codeW, min after.length (2 ^ s.cfg.countW - 1),
        ⟨.input, .low, true⟩, ⟨.input, .low, true⟩⟩ ∧
      t.busy = false ∧ t.faulted = s.faulted ∧ t.refused = s.refused

/-! ### Host reads -/

/-- `RDCODE` and `RDCNT` return the whole register, zero-extended, at any time, and change nothing else
(R100, R101, R103, R31) [D17]. -/
def Obligations.ReadsReturnTheWholeRegister : Prop :=
  ∀ (s : State) (r : ReaderIx) (q : Slot), s.InRange → readerSlot s.cfg r = some q →
    exec (.rdcode r) s = .next { s with returned := some (s.reader q).code } ∧
    exec (.rdcnt r) s = .next { s with returned := some (s.reader q).cnt }

/-- Reads have no side effect and are idempotent, while busy too (R34): only the value handed back
differs, and a second read hands back the same value. `Sample` is a function of the state. -/
def Obligations.ReadsHaveNoSideEffect : Prop :=
  ∀ (s : State) (r : ReaderIx), (readerSlot s.cfg r).isSome = true →
    ∀ i : Instr, (i = .rdcode r ∨ i = .rdcnt r) →
      ∃ (v : Nat) (t : State), exec i s = .next t ∧ t = { s with returned := some v } ∧
        exec i t = .next t ∧ ∀ q k x, sample t q k x = sample s q k x

/-- The register selector space (R30): selectors 0 to 5 name `code[0]`, `cnt[0]`, `code[1]`, `cnt[1]`,
`code[2]`, `cnt[2]` of the readers that exist; every other selector is reserved [D18]. -/
def Obligations.SelectorsNameTheRegistersOfTheMap : Prop :=
  ∀ (s : State) (n : Nat),
    memRead s 0 n = (if 0 < s.cfg.nReaders then some ((s.reader 0).code % 2 ^ n) else none) ∧
    memRead s 1 n = (if 0 < s.cfg.nReaders then some ((s.reader 0).cnt % 2 ^ n) else none) ∧
    memRead s 2 n = (if 1 < s.cfg.nReaders then some ((s.reader 1).code % 2 ^ n) else none) ∧
    memRead s 3 n = (if 1 < s.cfg.nReaders then some ((s.reader 1).cnt % 2 ^ n) else none) ∧
    memRead s 4 n = (if 2 < s.cfg.nReaders then some ((s.reader 2).code % 2 ^ n) else none) ∧
    memRead s 5 n = (if 2 < s.cfg.nReaders then some ((s.reader 2).cnt % 2 ^ n) else none) ∧
    memRead s 6 n = none ∧ memRead s 7 n = none

/-! ### Rules over all instructions -/

/-- The marks are sticky: no step clears one (R24) [D21]. -/
def Obligations.MarksAreSticky : Prop :=
  ∀ s t : State, step s = .next t →
    (s.faulted = true → t.faulted = true) ∧ (s.refused = true → t.refused = true)

/-- The marks change no rule's result (R24): from a state with other marks a step does the same to
everything else [D21]. -/
def Obligations.MarksChangeNoResult : Prop :=
  ∀ (s t : State) (f g : Bool), step s = .next t →
    ∃ t', step { s with faulted := f, refused := g } = .next t' ∧ t.SameHardware t' ∧
      t'.stimuli = t.stimuli ∧ t'.outcome = t.outcome ∧ t'.returned = t.returned ∧ t'.delayReq = t.delayReq

/-- Each outcome sets its own mark and no other, and a step that does not end Ok changes no hardware
state, returns nothing and requests nothing (R114) [D21, D24, log 8]. -/
def Obligations.OutcomesSetTheirMarks : Prop :=
  ∀ (s t : State) (w : StimulusWord) (rest : List StimulusWord),
    s.stimuli = w :: rest → step s = .next t →
    match t.outcome with
    | .ok => t.faulted = s.faulted ∧ t.refused = s.refused
    | .fault _ => t.faulted = true ∧ t.refused = s.refused ∧ s.SameHardware t ∧ t.returned = none ∧
        t.delayReq = none
    | .refuse _ => t.refused = true ∧ t.faulted = s.faulted ∧ s.SameHardware t ∧ t.returned = none ∧
        t.delayReq = none

/-- The outcome codes of R114 [D24]. -/
def Obligations.OutcomeCodes : Prop :=
  StepOutcome.code .ok = 0 ∧ StepOutcome.code (.fault .initRace) = 1 ∧
  StepOutcome.code (.refuse .badReader) = 2 ∧ StepOutcome.code (.refuse .reserved) = 3 ∧
  StepOutcome.code (.refuse .busy) = 4 ∧ StepOutcome.code (.refuse .notBusy) = 5

/-- The pins are configuration, not registers (R13): no operation writes them or reads them, and
`LineOfPin(p)` is `(r, k)` exactly when `p` is the configured pin of that line. -/
def Obligations.PinsAreFixedAndNameTheirLines : Prop :=
  (∀ (i : Instr) (s t : State) (lines : List PinPair), exec i s = .next t →
    t.cfg = s.cfg ∧
    exec i { s with cfg := { s.cfg with lines := lines } } =
      .next { t with cfg := { t.cfg with lines := lines } }) ∧
  (∀ (cfg : Config) (p : PinId) (r : Nat) (k : LineSel), cfg.WellFormed →
    (lineOfPin cfg p = some (r, k) ↔
      ∃ pair, cfg.lines[r]? = some pair ∧ p = pinOf pair k))

/-- An edge is routed by its pin alone (R117): `PIN_ZERO[r]` to `EDGE0 r`, `PIN_ONE[r]` to `EDGE1 r`, a pin
that is not configured to nothing [D6 for the pins' being distinct]. -/
def Obligations.EdgesAreRoutedByPin : Prop :=
  ∀ (cfg : Config) (x : Level), cfg.WellFormed →
    (∀ (r : ReaderIx) (pair : PinPair), cfg.lines[r.toNat]? = some pair →
      edgeOfPin cfg pair.zero x = some (.edge0 r x) ∧ edgeOfPin cfg pair.one x = some (.edge1 r x)) ∧
    (∀ p : PinId, p ∉ cfg.pins → edgeOfPin cfg p x = none)

/-- Between two CLEARs of a reader its count never decreases, and a step adds at most 1 to it
(the spec derives R19 from R71, R72, R74) [D4]. -/
def Obligations.CountNeverDecreasesBetweenClears : Prop :=
  ∀ (s t : State) (q : Slot), s.InRange → step s = .next t →
    ¬ (s.stimuli.head? = some 0x60 ∧ s.busy = true ∧ s.seqR = slotIx q ∧ s.seqPhase = 7) →
    (s.reader q).cnt ≤ (t.reader q).cnt ∧ (t.reader q).cnt ≤ (s.reader q).cnt + 1

/-- The access rights of R23, over all instructions: the lines of a reader change only by a sequencer step
on that reader; its data registers only by its own edges and by its CLEAR, which writes 0; the sequencer
registers only by `INIT` and sequencer steps; the configuration and every other reader never (R23, R40, R122)
[D28]. The returned value changes only by reads and the requested delay only by sequencer steps; that these
stand in the state, and the words still to come, is the model's choice (log 6, log 7). -/
def Obligations.AgentsKeepToTheirRights : Prop :=
  ∀ (i : Instr) (s t : State) (q : Slot), exec i s = .next t →
    let sequencerStep := i = .seq ∨ ∃ m : MicroOp, i = m.instr
    (¬ (sequencerStep ∧ s.seqR = slotIx q) →
      (t.reader q).zeroLine = (s.reader q).zeroLine ∧ (t.reader q).oneLine = (s.reader q).oneLine) ∧
    let clears := s.seqR = slotIx q ∧ (i = .clear ∨ (i = .seq ∧ s.busy = true ∧ s.seqPhase = 7))
    (edgeOf (slotIx q) i = false → ¬ clears →
      (t.reader q).code = (s.reader q).code ∧ (t.reader q).cnt = (s.reader q).cnt) ∧
    (clears → (t.reader q).code = 0 ∧ (t.reader q).cnt = 0) ∧
    (¬ sequencerStep → (∀ r, i ≠ .init r) →
      t.busy = s.busy ∧ t.seqR = s.seqR ∧ t.seqPhase = s.seqPhase) ∧
    ((∀ r, i ≠ .rdcode r ∧ i ≠ .rdcnt r) → t.returned = s.returned) ∧
    (¬ sequencerStep → t.delayReq = s.delayReq) ∧
    t.cfg = s.cfg ∧ t.stimuli = s.stimuli

/-- A step that is not an edge or read of reader q, nor a sequencer step on it, reads nothing of reader q,
while q is under initialization too: with any other contents of q it does the same, and leaves those contents
as they are (R40). -/
def Obligations.StepReadsNothingOfOtherReaders : Prop :=
  ∀ (s t : State) (w : StimulusWord) (rest : List StimulusWord) (q : Slot) (contents : Reader),
    s.stimuli = w :: rest → (w = 0x60 → s.busy = false ∨ s.seqR ≠ slotIx q) →
    (∀ i, decodeStimulus w = .ok i → i.reader? = some (slotIx q) → i = .init (slotIx q)) →
    step s = .next t → step (s.setReader q contents) = .next (t.setReader q contents)

/-- Edge steps of different readers commute (R40). -/
def Obligations.EdgesOfDifferentReadersCommute : Prop :=
  ∀ (s : State) (r r' : ReaderIx) (k k' : LineSel) (x x' : Level),
    (readerSlot s.cfg r).isSome = true → (readerSlot s.cfg r').isSome = true → r ≠ r' →
    ∃ s₁ s₂ t, exec (k.edge r x) s = .next s₁ ∧ exec (k'.edge r' x') s = .next s₂ ∧
      exec (k'.edge r' x') s₁ = .next t ∧ exec (k.edge r x) s₂ = .next t

/-- The values after power-on (R25) in any configuration: lines INPUT, LOW, off, the sequencer idle, the
marks false, the data registers whatever they held [D20]. Reset is power-on with the model's choice of
configuration and contents (log 1, log 2, log 3). -/
def Obligations.PowerOnValues : Prop :=
  (∀ (cfg : Config) (contents : Vector (Nat × Nat) 3) (q : Slot),
    let s := State.powerOn cfg contents
    s.cfg = cfg ∧ s.reader q = ⟨contents[q].1, contents[q].2, ⟨.input, .low, false⟩, ⟨.input, .low, false⟩⟩ ∧
    s.busy = false ∧ s.seqR = 0 ∧ s.seqPhase = 0 ∧ s.faulted = false ∧ s.refused = false) ∧
  State.reset = State.powerOn Config.default #v[(0, 0), (0, 0), (0, 0)]

/-- A reader at or above `N_READERS` does not exist: no step changes what the model's slot for it holds
(R10; the slots are the model's choice, log 5). -/
def Obligations.AbsentReadersAreNeverTouched : Prop :=
  ∀ (s t : State) (q : Slot), step s = .next t → s.cfg.nReaders ≤ q.val → t.reader q = s.reader q
end

