-- ==== Sys2Proof/Laws/Decode.lean ====
section
/-! SUPPORT. The fields of a word, and what the decoder can answer. -/

namespace Sys2Proof

@[simp] theorem opOf_mkWord (op : BitVec 4) (x : BitVec 1) (r : ReaderIx) : opOf (mkWord op x r) = op := by
  revert op x r; decide

@[simp] theorem zOf_mkWord (op : BitVec 4) (x : BitVec 1) (r : ReaderIx) : zOf (mkWord op x r) = 0 := by
  revert op x r; decide

@[simp] theorem xOf_mkWord (op : BitVec 4) (x : BitVec 1) (r : ReaderIx) : xOf (mkWord op x r) = x := by
  revert op x r; decide

@[simp] theorem rOf_mkWord (op : BitVec 4) (x : BitVec 1) (r : ReaderIx) : rOf (mkWord op x r) = r := by
  revert op x r; decide

/-- A word is its fields when its reserved bit is 0. -/
theorem mkWord_fields {w : StimulusWord} (h : zOf w = 0) : mkWord (opOf w) (xOf w) (rOf w) = w := by
  revert w; decide

@[simp] theorem Level.ofBit_bit (x : Level) : Level.ofBit x.bit = x := by cases x <;> rfl

theorem Level.bit_ofBit (b : BitVec 1) : (Level.ofBit b).bit = b := by revert b; decide

@[simp] theorem MicroOp.ofPhase_phase (m : MicroOp) : MicroOp.ofPhase m.phase = m := by cases m <;> rfl

@[simp] theorem MicroOp.phase_ofPhase (p : Phase) : (MicroOp.ofPhase p).phase = p := by revert p; decide

/-- A stimulus word never names a micro-operation (R60). -/
theorem decodeStimulus_no_microOp {w : StimulusWord} (m : MicroOp) : decodeStimulus w ≠ .ok m.instr := by
  revert w; cases m <;> decide

/-- What the bits of an accepted word are, instruction by instruction (R58). -/
theorem decodeStimulus_ok {w : StimulusWord} {i : Instr} (h : decodeStimulus w = .ok i) :
    (∃ r, i = .init r ∧ w = mkWord 1 0 r) ∨ (∃ r x, i = .edge0 r x ∧ w = mkWord 2 x.bit r) ∨
    (∃ r x, i = .edge1 r x ∧ w = mkWord 3 x.bit r) ∨ (∃ r, i = .rdcode r ∧ w = mkWord 4 0 r) ∨
    (∃ r, i = .rdcnt r ∧ w = mkWord 5 0 r) ∨ (i = .seq ∧ w = mkWord 6 0 0) := by
  have key : ∀ w : StimulusWord,
      (match decodeStimulus w with
      | .error _ => true
      | .ok (.init r) => decide (w = mkWord 1 0 r)
      | .ok (.edge0 r x) => decide (w = mkWord 2 x.bit r)
      | .ok (.edge1 r x) => decide (w = mkWord 3 x.bit r)
      | .ok (.rdcode r) => decide (w = mkWord 4 0 r)
      | .ok (.rdcnt r) => decide (w = mkWord 5 0 r)
      | .ok .seq => decide (w = mkWord 6 0 0)
      | .ok _ => false) = true := by decide
  have hw := key w
  rw [h] at hw
  cases i <;> simp_all

end Sys2Proof
end

