-- ==== Sys2Proof/Laws/Flags.lean ====
section
/-! SUPPORT. The arithmetic of the data registers. -/

namespace Sys2Proof.Machine

theorem trunc_lt (n v : Nat) : trunc n v < 2 ^ n := Nat.mod_lt _ (by positivity)

theorem trunc_of_lt {n v : Nat} (h : v < 2 ^ n) : trunc n v = v := Nat.mod_eq_of_lt h

theorem append_lt (cfg : Config) (c : Nat) (b : Bool) : append cfg c b < 2 ^ cfg.codeW := trunc_lt _ _

theorem inc_lt (cfg : Config) (n : Nat) : inc cfg n < 2 ^ cfg.countW := by
  have : 0 < 2 ^ cfg.countW := by positivity
  unfold inc; omega

theorem le_inc {cfg : Config} {n : Nat} (h : n < 2 ^ cfg.countW) : n ≤ inc cfg n := by unfold inc; omega

theorem inc_le_succ (cfg : Config) (n : Nat) : inc cfg n ≤ n + 1 := by unfold inc; omega

/-- A counter of at least one bit never comes back to 0 by counting (R76). -/
theorem inc_pos {cfg : Config} (h : 0 < cfg.countW) (n : Nat) : 0 < inc cfg n := by
  have : 2 ≤ 2 ^ cfg.countW := by
    calc 2 = 2 ^ 1 := rfl
      _ ≤ 2 ^ cfg.countW := Nat.pow_le_pow_right (by omega) h
  unfold inc; omega

/-- Appending to a truncated value is appending to the value and truncating once. -/
theorem append_trunc (cfg : Config) (c : Nat) (b : Bool) :
    append cfg (trunc cfg.codeW c) b = append cfg c b := by
  unfold append trunc
  rw [Nat.add_mod, Nat.mul_mod, Nat.mod_mod, ← Nat.mul_mod, ← Nat.add_mod]

/-- Saturating increments add up. -/
theorem inc_min (cfg : Config) (n m : Nat) :
    inc cfg (min (n + m) (2 ^ cfg.countW - 1)) = min (n + (m + 1)) (2 ^ cfg.countW - 1) := by
  unfold inc; omega

theorem fsm_idle_iff (rd : Reader) : rd.fsm = .idle ↔ rd.cnt = 0 := by
  unfold Reader.fsm; split <;> simp_all

end Sys2Proof.Machine
end

