-- ==== Sys2Proof/Laws/Operands.lean ====
section
/-! SUPPORT. The operand forms: which reader an index names, and the selectors. -/

namespace Sys2Proof.Machine

/-- An index names the reader instance of its own number, when that instance exists. -/
theorem readerSlot_eq_some {cfg : Config} {r : ReaderIx} {q : Slot} :
    readerSlot cfg r = some q ↔ r = slotIx q ∧ q.val < cfg.nReaders := by
  have hq := q.isLt
  have key : r = slotIx q ↔ r.toNat = q.val := by
    constructor
    · rintro rfl; simp [slotIx]; omega
    · intro h; apply BitVec.eq_of_toNat_eq; simp [slotIx, h]; omega
  rw [key]
  unfold readerSlot
  split
  · split
    · simp only [Option.some.injEq, Fin.ext_iff]; omega
    · simp; omega
  · simp; omega

theorem readerSlot_slotIx {cfg : Config} {q : Slot} (h : q.val < cfg.nReaders) :
    readerSlot cfg (slotIx q) = some q := readerSlot_eq_some.2 ⟨rfl, h⟩

theorem slotIx_injective {q q' : Slot} (h : slotIx q = slotIx q') : q = q' := by
  revert q q'; decide

/-- A reader index has a reader instance exactly when the instruction that names it is well formed. -/
theorem readerSlot_isSome (cfg : Config) (r : ReaderIx) : (readerSlot cfg r).isSome = cfg.hasReader r := by
  have hr : r.toNat < 3 ↔ r ≠ 3 := by revert r; decide
  unfold readerSlot Config.hasReader
  by_cases h3 : r.toNat < 3 <;> by_cases hn : r.toNat < cfg.nReaders
  · simpa [h3, hn] using hr.1 h3
  · simp [h3, hn]
  · have : r = 3 := by by_contra h; exact h3 (hr.2 h)
    simp [this]
  · simp [h3, hn]

theorem readerSlot_eq_none {cfg : Config} {r : ReaderIx} :
    readerSlot cfg r = none ↔ cfg.hasReader r = false := by
  rw [← readerSlot_isSome]; simp

@[simp] theorem selector_reader (r : ReaderIx) (sel : BitVec 1) : (selector r sel).extractLsb' 1 2 = r := by
  revert r sel; decide

@[simp] theorem selector_sel (r : ReaderIx) (sel : BitVec 1) : (selector r sel).extractLsb' 0 1 = sel := by
  revert r sel; decide

end Sys2Proof.Machine
end

