-- ==== Sys2Proof/Laws/State.lean ====
section
/-! SUPPORT. One lemma for each field of each update of the state, and the read-after-write laws of the
reader instances and lines. -/

namespace Sys2Proof.Machine

/-! ### Reader instances -/

@[simp] theorem reader_setReader_same (s : State) (q : Slot) (rd : Reader) :
    (s.setReader q rd).reader q = rd := by simp [State.reader, State.setReader]

theorem reader_setReader_other (s : State) {q q' : Slot} (rd : Reader) (h : q' ≠ q) :
    (s.setReader q rd).reader q' = s.reader q' := by
  have : q.val ≠ q'.val := fun e => h (Fin.ext e.symm)
  simp [State.reader, State.setReader, this]

theorem reader_setReader (s : State) (q q' : Slot) (rd : Reader) :
    (s.setReader q rd).reader q' = if q' = q then rd else s.reader q' := by
  by_cases h : q' = q
  · subst h; simp
  · simp [reader_setReader_other s rd h, h]

/-- Writing a reader instance back changes nothing. -/
theorem setReader_reader (s : State) (q : Slot) : s.setReader q (s.reader q) = s := by
  simp [State.setReader, State.reader]

/-- Two states whose reader instances all agree hold the same register file. -/
theorem readers_ext {s t : State} (h : ∀ q, t.reader q = s.reader q) : t.readers = s.readers := by
  ext i hi : 1
  exact h ⟨i, hi⟩

theorem setReader_comm (s : State) {q q' : Slot} (a b : Reader) (h : q ≠ q') :
    (s.setReader q a).setReader q' b = (s.setReader q' b).setReader q a := by
  have : q.val ≠ q'.val := fun e => h (Fin.ext e)
  simp [State.setReader, Vector.set_comm _ _ this]

@[simp] theorem setReader_setReader (s : State) (q : Slot) (a b : Reader) :
    (s.setReader q a).setReader q b = s.setReader q b := by simp [State.setReader]

@[simp] theorem setReader_cfg (s : State) (q : Slot) (rd : Reader) : (s.setReader q rd).cfg = s.cfg := rfl
@[simp] theorem setReader_busy (s : State) (q : Slot) (rd : Reader) : (s.setReader q rd).busy = s.busy := rfl
@[simp] theorem setReader_seqR (s : State) (q : Slot) (rd : Reader) : (s.setReader q rd).seqR = s.seqR := rfl
@[simp] theorem setReader_seqPhase (s : State) (q : Slot) (rd : Reader) :
    (s.setReader q rd).seqPhase = s.seqPhase := rfl
@[simp] theorem setReader_faulted (s : State) (q : Slot) (rd : Reader) :
    (s.setReader q rd).faulted = s.faulted := rfl
@[simp] theorem setReader_refused (s : State) (q : Slot) (rd : Reader) :
    (s.setReader q rd).refused = s.refused := rfl
@[simp] theorem setReader_stimuli (s : State) (q : Slot) (rd : Reader) :
    (s.setReader q rd).stimuli = s.stimuli := rfl
@[simp] theorem setReader_outcome (s : State) (q : Slot) (rd : Reader) :
    (s.setReader q rd).outcome = s.outcome := rfl
@[simp] theorem setReader_returned (s : State) (q : Slot) (rd : Reader) :
    (s.setReader q rd).returned = s.returned := rfl
@[simp] theorem setReader_delayReq (s : State) (q : Slot) (rd : Reader) :
    (s.setReader q rd).delayReq = s.delayReq := rfl

/-! ### Lines -/

@[simp] theorem line_zero (rd : Reader) : rd.line .zero = rd.zeroLine := rfl
@[simp] theorem line_one (rd : Reader) : rd.line .one = rd.oneLine := rfl
@[simp] theorem setLine_zero (rd : Reader) (l : Line) : rd.setLine .zero l = { rd with zeroLine := l } := rfl
@[simp] theorem setLine_one (rd : Reader) (l : Line) : rd.setLine .one l = { rd with oneLine := l } := rfl

theorem line_setLine_same (rd : Reader) (k : LineSel) (l : Line) : (rd.setLine k l).line k = l := by
  cases k <;> rfl

@[simp] theorem setLine_code (rd : Reader) (k : LineSel) (l : Line) : (rd.setLine k l).code = rd.code := by
  cases k <;> rfl

@[simp] theorem setLine_cnt (rd : Reader) (k : LineSel) (l : Line) : (rd.setLine k l).cnt = rd.cnt := by
  cases k <;> rfl

/-! ### Raising an outcome -/

@[simp] theorem raise_cfg (s : State) (o : StepOutcome) : (s.raise o).cfg = s.cfg := by cases o <;> rfl
@[simp] theorem raise_readers (s : State) (o : StepOutcome) : (s.raise o).readers = s.readers := by
  cases o <;> rfl
@[simp] theorem raise_reader (s : State) (o : StepOutcome) (q : Slot) :
    (s.raise o).reader q = s.reader q := by cases o <;> rfl
@[simp] theorem raise_busy (s : State) (o : StepOutcome) : (s.raise o).busy = s.busy := by cases o <;> rfl
@[simp] theorem raise_seqR (s : State) (o : StepOutcome) : (s.raise o).seqR = s.seqR := by cases o <;> rfl
@[simp] theorem raise_seqPhase (s : State) (o : StepOutcome) : (s.raise o).seqPhase = s.seqPhase := by
  cases o <;> rfl
@[simp] theorem raise_stimuli (s : State) (o : StepOutcome) : (s.raise o).stimuli = s.stimuli := by
  cases o <;> rfl
@[simp] theorem raise_outcome (s : State) (o : StepOutcome) : (s.raise o).outcome = o := by cases o <;> rfl
@[simp] theorem raise_returned (s : State) (o : StepOutcome) : (s.raise o).returned = s.returned := by
  cases o <;> rfl
@[simp] theorem raise_delayReq (s : State) (o : StepOutcome) : (s.raise o).delayReq = s.delayReq := by
  cases o <;> rfl
@[simp] theorem raise_fault_faulted (s : State) (c : FaultCause) : (s.raise (.fault c)).faulted = true := rfl
@[simp] theorem raise_fault_refused (s : State) (c : FaultCause) :
    (s.raise (.fault c)).refused = s.refused := rfl
@[simp] theorem raise_refuse_refused (s : State) (c : RefuseCause) :
    (s.raise (.refuse c)).refused = true := rfl
@[simp] theorem raise_refuse_faulted (s : State) (c : RefuseCause) :
    (s.raise (.refuse c)).faulted = s.faulted := rfl

/-! ### The model's outputs -/

@[simp] theorem returns_cfg (s : State) (v : Nat) : (s.returns v).cfg = s.cfg := rfl
@[simp] theorem returns_readers (s : State) (v : Nat) : (s.returns v).readers = s.readers := rfl
@[simp] theorem returns_reader (s : State) (v : Nat) (q : Slot) : (s.returns v).reader q = s.reader q := rfl
@[simp] theorem returns_busy (s : State) (v : Nat) : (s.returns v).busy = s.busy := rfl
@[simp] theorem returns_seqR (s : State) (v : Nat) : (s.returns v).seqR = s.seqR := rfl
@[simp] theorem returns_seqPhase (s : State) (v : Nat) : (s.returns v).seqPhase = s.seqPhase := rfl
@[simp] theorem returns_stimuli (s : State) (v : Nat) : (s.returns v).stimuli = s.stimuli := rfl
@[simp] theorem returns_outcome (s : State) (v : Nat) : (s.returns v).outcome = s.outcome := rfl
@[simp] theorem returns_faulted (s : State) (v : Nat) : (s.returns v).faulted = s.faulted := rfl
@[simp] theorem returns_refused (s : State) (v : Nat) : (s.returns v).refused = s.refused := rfl
@[simp] theorem returns_delayReq (s : State) (v : Nat) : (s.returns v).delayReq = s.delayReq := rfl
@[simp] theorem returns_returned (s : State) (v : Nat) : (s.returns v).returned = some v := rfl

@[simp] theorem requestDelay_cfg (s : State) (t : Nat) : (s.requestDelay t).cfg = s.cfg := rfl
@[simp] theorem requestDelay_readers (s : State) (t : Nat) : (s.requestDelay t).readers = s.readers := rfl
@[simp] theorem requestDelay_reader (s : State) (t : Nat) (q : Slot) :
    (s.requestDelay t).reader q = s.reader q := rfl
@[simp] theorem requestDelay_busy (s : State) (t : Nat) : (s.requestDelay t).busy = s.busy := rfl
@[simp] theorem requestDelay_seqR (s : State) (t : Nat) : (s.requestDelay t).seqR = s.seqR := rfl
@[simp] theorem requestDelay_seqPhase (s : State) (t : Nat) : (s.requestDelay t).seqPhase = s.seqPhase := rfl
@[simp] theorem requestDelay_stimuli (s : State) (t : Nat) : (s.requestDelay t).stimuli = s.stimuli := rfl
@[simp] theorem requestDelay_outcome (s : State) (t : Nat) : (s.requestDelay t).outcome = s.outcome := rfl
@[simp] theorem requestDelay_faulted (s : State) (t : Nat) : (s.requestDelay t).faulted = s.faulted := rfl
@[simp] theorem requestDelay_refused (s : State) (t : Nat) : (s.requestDelay t).refused = s.refused := rfl
@[simp] theorem requestDelay_returned (s : State) (t : Nat) : (s.requestDelay t).returned = s.returned := rfl
@[simp] theorem requestDelay_delayReq (s : State) (t : Nat) : (s.requestDelay t).delayReq = some t := rfl

/-! ### Taking a stimulus word -/

@[simp] theorem taking_cfg (s : State) (ws : List StimulusWord) : (s.taking ws).cfg = s.cfg := rfl
@[simp] theorem taking_readers (s : State) (ws : List StimulusWord) : (s.taking ws).readers = s.readers := rfl
@[simp] theorem taking_reader (s : State) (ws : List StimulusWord) (q : Slot) :
    (s.taking ws).reader q = s.reader q := rfl
@[simp] theorem taking_busy (s : State) (ws : List StimulusWord) : (s.taking ws).busy = s.busy := rfl
@[simp] theorem taking_seqR (s : State) (ws : List StimulusWord) : (s.taking ws).seqR = s.seqR := rfl
@[simp] theorem taking_seqPhase (s : State) (ws : List StimulusWord) :
    (s.taking ws).seqPhase = s.seqPhase := rfl
@[simp] theorem taking_faulted (s : State) (ws : List StimulusWord) : (s.taking ws).faulted = s.faulted := rfl
@[simp] theorem taking_refused (s : State) (ws : List StimulusWord) : (s.taking ws).refused = s.refused := rfl
@[simp] theorem taking_stimuli (s : State) (ws : List StimulusWord) : (s.taking ws).stimuli = ws := rfl
@[simp] theorem taking_outcome (s : State) (ws : List StimulusWord) : (s.taking ws).outcome = .ok := rfl
@[simp] theorem taking_returned (s : State) (ws : List StimulusWord) : (s.taking ws).returned = none := rfl
@[simp] theorem taking_delayReq (s : State) (ws : List StimulusWord) : (s.taking ws).delayReq = none := rfl

/-! ### The sequencer -/

@[simp] theorem advance_cfg (s : State) : s.advance.cfg = s.cfg := by unfold State.advance; split <;> rfl
@[simp] theorem advance_readers (s : State) : s.advance.readers = s.readers := by
  unfold State.advance; split <;> rfl
@[simp] theorem advance_reader (s : State) (q : Slot) : s.advance.reader q = s.reader q := by
  unfold State.advance; split <;> rfl
@[simp] theorem advance_seqR (s : State) : s.advance.seqR = s.seqR := by unfold State.advance; split <;> rfl
@[simp] theorem advance_faulted (s : State) : s.advance.faulted = s.faulted := by
  unfold State.advance; split <;> rfl
@[simp] theorem advance_refused (s : State) : s.advance.refused = s.refused := by
  unfold State.advance; split <;> rfl
@[simp] theorem advance_stimuli (s : State) : s.advance.stimuli = s.stimuli := by
  unfold State.advance; split <;> rfl
@[simp] theorem advance_outcome (s : State) : s.advance.outcome = s.outcome := by
  unfold State.advance; split <;> rfl
@[simp] theorem advance_returned (s : State) : s.advance.returned = s.returned := by
  unfold State.advance; split <;> rfl
@[simp] theorem advance_delayReq (s : State) : s.advance.delayReq = s.delayReq := by
  unfold State.advance; split <;> rfl

theorem advance_last {s : State} (h : s.seqPhase = 7) : s.advance = { s with busy := false } :=
  if_pos h

theorem advance_earlier {s : State} (h : s.seqPhase ≠ 7) :
    s.advance = { s with seqPhase := s.seqPhase + 1 } := if_neg h

@[simp] theorem startInit_cfg (s : State) (r : ReaderIx) : (s.startInit r).cfg = s.cfg := rfl
@[simp] theorem startInit_readers (s : State) (r : ReaderIx) : (s.startInit r).readers = s.readers := rfl
@[simp] theorem startInit_reader (s : State) (r : ReaderIx) (q : Slot) :
    (s.startInit r).reader q = s.reader q := rfl
@[simp] theorem startInit_busy (s : State) (r : ReaderIx) : (s.startInit r).busy = true := rfl
@[simp] theorem startInit_seqR (s : State) (r : ReaderIx) : (s.startInit r).seqR = r := rfl
@[simp] theorem startInit_seqPhase (s : State) (r : ReaderIx) : (s.startInit r).seqPhase = 0 := rfl
@[simp] theorem startInit_stimuli (s : State) (r : ReaderIx) : (s.startInit r).stimuli = s.stimuli := rfl

@[simp] theorem clearReader_cfg (s : State) (q : Slot) : (s.clearReader q).cfg = s.cfg := rfl
@[simp] theorem clearReader_busy (s : State) (q : Slot) : (s.clearReader q).busy = false := rfl
@[simp] theorem clearReader_seqR (s : State) (q : Slot) : (s.clearReader q).seqR = s.seqR := rfl
@[simp] theorem clearReader_seqPhase (s : State) (q : Slot) : (s.clearReader q).seqPhase = s.seqPhase := rfl
@[simp] theorem clearReader_stimuli (s : State) (q : Slot) : (s.clearReader q).stimuli = s.stimuli := rfl

theorem clearReader_reader (s : State) (q q' : Slot) :
    (s.clearReader q).reader q' = if q' = q then { s.reader q with code := 0, cnt := 0 } else s.reader q' :=
  reader_setReader s q q' _

/-- An action on a line touches nothing but the reader instance. -/
theorem actOnLine_eq (s : State) (q : Slot) (k : LineSel) (f : Line → Line) :
    s.actOnLine q k f = s.setReader q ((s.reader q).setLine k (f ((s.reader q).line k))) := rfl

@[simp] theorem actOnLine_cfg (s : State) (q : Slot) (k : LineSel) (f : Line → Line) :
    (s.actOnLine q k f).cfg = s.cfg := rfl
@[simp] theorem actOnLine_busy (s : State) (q : Slot) (k : LineSel) (f : Line → Line) :
    (s.actOnLine q k f).busy = s.busy := rfl
@[simp] theorem actOnLine_seqR (s : State) (q : Slot) (k : LineSel) (f : Line → Line) :
    (s.actOnLine q k f).seqR = s.seqR := rfl
@[simp] theorem actOnLine_seqPhase (s : State) (q : Slot) (k : LineSel) (f : Line → Line) :
    (s.actOnLine q k f).seqPhase = s.seqPhase := rfl
@[simp] theorem actOnLine_stimuli (s : State) (q : Slot) (k : LineSel) (f : Line → Line) :
    (s.actOnLine q k f).stimuli = s.stimuli := rfl

end Sys2Proof.Machine
end

