-- ==== Sys2Proof/Laws/Ops.lean ====
section
/-! SUPPORT. What each shared operation, and each meaning, can do, said once. -/

namespace Sys2Proof.Machine

/-- Everything an edge operation can do (R71, R72, R78). -/
theorem edgeStep_cases (k : LineSel) (r : ReaderIx) (x : Level) (s : State) :
    (readerSlot s.cfg r = none ∧ edgeStep k r x s = s.raise (.refuse .badReader)) ∨
    ∃ q, readerSlot s.cfg r = some q ∧
      ((s.initializing r = true ∧ edgeStep k r x s = s.raise (.fault .initRace)) ∨
       (s.initializing r = false ∧ sample s q k x = .low ∧
          edgeStep k r x s = appendBit s q k.bitValue) ∨
       (s.initializing r = false ∧ sample s q k x = .high ∧ edgeStep k r x s = s)) := by
  unfold edgeStep
  cases hq : readerSlot s.cfg r with
  | none => simp
  | some q =>
    cases hi : s.initializing r <;> cases hx : sample s q k x <;> simp [hx]

/-- The reader under initialization, as the rules write it. -/
theorem initializing_eq_false {s : State} {r : ReaderIx} :
    s.initializing r = false ↔ s.busy = false ∨ s.seqR ≠ r := by
  unfold State.initializing
  cases s.busy <;> simp

theorem initializing_eq_true {s : State} {r : ReaderIx} :
    s.initializing r = true ↔ s.busy = true ∧ s.seqR = r := by simp [State.initializing]

/-- Everything a host read can do (R100, R101). -/
theorem readStep_cases (r : ReaderIx) (sel : BitVec 1) (n : Nat) (s : State) :
    (readerSlot s.cfg r = none ∧ readStep (selector r sel) n s = s.raise (.refuse .badReader)) ∨
    ∃ q, readerSlot s.cfg r = some q ∧
      readStep (selector r sel) n s =
        s.returns (trunc n (if sel = 0 then (s.reader q).code else (s.reader q).cnt)) := by
  unfold readStep memRead
  cases hq : readerSlot s.cfg r <;> simp [hq]

/-- A sequencer step that answers a next state acted on the reader `seq_r` and advanced (R81). -/
theorem microStep_eq_next {act : Slot → State → State} {s t : State} :
    microStep act s = .next t ↔ ∃ q, readerSlot s.cfg s.seqR = some q ∧ t = (act q s).advance := by
  unfold microStep
  cases hq : readerSlot s.cfg s.seqR <;> simp [eq_comm]

theorem microStep_some {act : Slot → State → State} {s : State} {q : Slot}
    (h : readerSlot s.cfg s.seqR = some q) : microStep act s = .next (act q s).advance := by
  simp [microStep, h]

theorem microStep_none {act : Slot → State → State} {s : State}
    (h : readerSlot s.cfg s.seqR = none) : microStep act s = .fault .seqReaderAbsent := by
  simp [microStep, h]

/-- The action of each micro-operation on reader `q`, before the advance (R82 to R89). -/
def microAct : MicroOp → Slot → State → State
  | .zHigh => fun q s => s.actOnLine q .zero Line.driveHigh
  | .zLow => fun q s => s.actOnLine q .zero Line.driveLow
  | .zRel => fun q s => s.actOnLine q .zero Line.release
  | .oHigh => fun q s => s.actOnLine q .one Line.driveHigh
  | .oLow => fun q s => s.actOnLine q .one Line.driveLow
  | .oRel => fun q s => s.actOnLine q .one Line.release
  | .settle => fun _ s => s.requestDelay s.cfg.settleDelay
  | .clear => fun q s => s.clearReader q

theorem exec_microOp (m : MicroOp) (s : State) : exec m.instr s = microStep (microAct m) s := by
  cases m <;> rfl

theorem exec_microOp_some (m : MicroOp) {s : State} {q : Slot} (h : readerSlot s.cfg s.seqR = some q) :
    exec m.instr s = .next (microAct m q s).advance := (exec_microOp m s).trans (microStep_some h)

/-- The two edge instructions are one edge operation each, on their own line. -/
theorem exec_edge (k : LineSel) (r : ReaderIx) (x : Level) (s : State) :
    exec (k.edge r x) s = .next (edgeStep k r x s) := by cases k <;> rfl

/-- `SEQ` while busy, as one step of the sequencer. -/
theorem execSeq_busy {s : State} (h : s.busy = true) :
    execSeq s = microStep (microAct (MicroOp.ofPhase s.seqPhase)) s := by
  unfold execSeq
  rw [if_pos h]
  cases MicroOp.ofPhase s.seqPhase <;> rfl

theorem execSeq_idle {s : State} (h : s.busy = false) : execSeq s = .next (s.raise (.refuse .notBusy)) := by
  simp [execSeq, h]

/-- Everything `INIT` can do (R80). -/
theorem execInit_cases (r : ReaderIx) (s : State) :
    (readerSlot s.cfg r = none ∧ execInit r s = .next (s.raise (.refuse .badReader))) ∨
    ((readerSlot s.cfg r).isSome = true ∧ s.busy = true ∧ execInit r s = .next (s.raise (.refuse .busy))) ∨
    ((readerSlot s.cfg r).isSome = true ∧ s.busy = false ∧ execInit r s = .next (s.startInit r)) := by
  unfold execInit
  cases hq : readerSlot s.cfg r <;> cases hb : s.busy <;> simp

/-- Everything an instruction of the stimulus word can do in the state `s`, case by case. -/
inductive StimulusEffect (s : State) : Instr → Host.Outcome State Fault Refusal → Prop
  | badReader {i : Instr} {r : ReaderIx} (hi : i.reader? = some r) (hq : readerSlot s.cfg r = none) :
      StimulusEffect s i (.next (s.raise (.refuse .badReader)))
  | initRace {r : ReaderIx} {q : Slot} (k : LineSel) (x : Level) (hq : readerSlot s.cfg r = some q)
      (hr : s.initializing r = true) : StimulusEffect s (k.edge r x) (.next (s.raise (.fault .initRace)))
  | valid {r : ReaderIx} {q : Slot} (k : LineSel) (x : Level) (hq : readerSlot s.cfg r = some q)
      (hr : s.initializing r = false) (hx : sample s q k x = .low) :
      StimulusEffect s (k.edge r x) (.next (appendBit s q k.bitValue))
  | spurious {r : ReaderIx} {q : Slot} (k : LineSel) (x : Level) (hq : readerSlot s.cfg r = some q)
      (hr : s.initializing r = false) (hx : sample s q k x = .high) :
      StimulusEffect s (k.edge r x) (.next s)
  | readCode {r : ReaderIx} {q : Slot} (hq : readerSlot s.cfg r = some q) :
      StimulusEffect s (.rdcode r) (.next (s.returns (trunc s.cfg.codeW (s.reader q).code)))
  | readCount {r : ReaderIx} {q : Slot} (hq : readerSlot s.cfg r = some q) :
      StimulusEffect s (.rdcnt r) (.next (s.returns (trunc s.cfg.countW (s.reader q).cnt)))
  | busy {r : ReaderIx} (hq : (readerSlot s.cfg r).isSome = true) (hb : s.busy = true) :
      StimulusEffect s (.init r) (.next (s.raise (.refuse .busy)))
  | start {r : ReaderIx} (hq : (readerSlot s.cfg r).isSome = true) (hb : s.busy = false) :
      StimulusEffect s (.init r) (.next (s.startInit r))
  | notBusy (hb : s.busy = false) : StimulusEffect s .seq (.next (s.raise (.refuse .notBusy)))
  | absent (hb : s.busy = true) (hq : readerSlot s.cfg s.seqR = none) :
      StimulusEffect s .seq (.fault .seqReaderAbsent)
  | micro {q : Slot} (hb : s.busy = true) (hq : readerSlot s.cfg s.seqR = some q) :
      StimulusEffect s .seq (.next (microAct (MicroOp.ofPhase s.seqPhase) q s).advance)

theorem edge_effect (k : LineSel) (r : ReaderIx) (x : Level) (s : State) :
    StimulusEffect s (k.edge r x) (exec (k.edge r x) s) := by
  rw [exec_edge]
  rcases edgeStep_cases k r x s with ⟨hq, he⟩ | ⟨q, hq, ⟨hi, he⟩ | ⟨hi, hx, he⟩ | ⟨hi, hx, he⟩⟩ <;> rw [he]
  · exact .badReader (r := r) (by cases k <;> rfl) hq
  · exact .initRace k x hq hi
  · exact .valid k x hq hi hx
  · exact .spurious k x hq hi hx

/-- What an instruction of the stimulus word answers is one of the cases of `StimulusEffect`. -/
theorem exec_effect {w : StimulusWord} {i : Instr} (hw : decodeStimulus w = .ok i) (s : State) :
    StimulusEffect s i (exec i s) := by
  rcases decodeStimulus_ok hw with ⟨r, hi, _⟩ | ⟨r, x, hi, _⟩ | ⟨r, x, hi, _⟩ | ⟨r, hi, _⟩ | ⟨r, hi, _⟩ | ⟨hi, _⟩ <;>
    subst hi
  · show StimulusEffect s (.init r) (execInit r s)
    rcases execInit_cases r s with ⟨hq, he⟩ | ⟨hq, hb, he⟩ | ⟨hq, hb, he⟩ <;> rw [he]
    · exact .badReader (r := r) rfl hq
    · exact .busy hq hb
    · exact .start hq hb
  · exact edge_effect .zero r x s
  · exact edge_effect .one r x s
  · show StimulusEffect s (.rdcode r) (.next (readStep (selector r 0) s.cfg.codeW s))
    rcases readStep_cases r 0 s.cfg.codeW s with ⟨hq, he⟩ | ⟨q, hq, he⟩ <;> rw [he]
    · exact .badReader (r := r) rfl hq
    · exact .readCode hq
  · show StimulusEffect s (.rdcnt r) (.next (readStep (selector r 1) s.cfg.countW s))
    rcases readStep_cases r 1 s.cfg.countW s with ⟨hq, he⟩ | ⟨q, hq, he⟩ <;> rw [he]
    · exact .badReader (r := r) rfl hq
    · exact .readCount hq
  · show StimulusEffect s .seq (execSeq s)
    cases hb : s.busy with
    | false => rw [execSeq_idle hb]; exact .notBusy hb
    | true =>
      rw [execSeq_busy hb]
      cases hq : readerSlot s.cfg s.seqR with
      | none => rw [microStep_none hq]; exact .absent hb hq
      | some q => rw [microStep_some hq]; exact .micro hb hq

theorem fetch_nil {s : State} (h : s.stimuli = []) : fetch s = none := by simp [fetch, h]

theorem fetch_cons {s : State} {w : StimulusWord} {rest : List StimulusWord} (h : s.stimuli = w :: rest) :
    fetch s = some (w, s.taking rest) := by simp [fetch, h]

/-! ### What the actions leave alone -/

@[simp] theorem microAct_cfg (m : MicroOp) (q : Slot) (s : State) : (microAct m q s).cfg = s.cfg := by
  cases m <;> rfl

@[simp] theorem microAct_seqR (m : MicroOp) (q : Slot) (s : State) : (microAct m q s).seqR = s.seqR := by
  cases m <;> rfl

@[simp] theorem microAct_seqPhase (m : MicroOp) (q : Slot) (s : State) :
    (microAct m q s).seqPhase = s.seqPhase := by cases m <;> rfl

@[simp] theorem microAct_stimuli (m : MicroOp) (q : Slot) (s : State) :
    (microAct m q s).stimuli = s.stimuli := by cases m <;> rfl

@[simp] theorem microAct_faulted (m : MicroOp) (q : Slot) (s : State) :
    (microAct m q s).faulted = s.faulted := by cases m <;> rfl

@[simp] theorem microAct_refused (m : MicroOp) (q : Slot) (s : State) :
    (microAct m q s).refused = s.refused := by cases m <;> rfl

@[simp] theorem microAct_outcome (m : MicroOp) (q : Slot) (s : State) :
    (microAct m q s).outcome = s.outcome := by cases m <;> rfl

@[simp] theorem microAct_returned (m : MicroOp) (q : Slot) (s : State) :
    (microAct m q s).returned = s.returned := by cases m <;> rfl

/-- An action on reader `q` leaves every other reader alone (R40). -/
theorem microAct_reader_other (m : MicroOp) {q q' : Slot} (s : State) (h : q' ≠ q) :
    (microAct m q s).reader q' = s.reader q' := by
  cases m <;>
    simp [microAct, actOnLine_eq, reader_setReader_other s _ h, clearReader_reader, h]

theorem appendBit_reader (s : State) (q q' : Slot) (b : Bool) :
    (appendBit s q b).reader q' =
      if q' = q then { s.reader q with
        code := append s.cfg (s.reader q).code b, cnt := inc s.cfg (s.reader q).cnt }
      else s.reader q' := reader_setReader s q q' _

@[simp] theorem appendBit_cfg (s : State) (q : Slot) (b : Bool) : (appendBit s q b).cfg = s.cfg := rfl
@[simp] theorem appendBit_busy (s : State) (q : Slot) (b : Bool) : (appendBit s q b).busy = s.busy := rfl
@[simp] theorem appendBit_seqR (s : State) (q : Slot) (b : Bool) : (appendBit s q b).seqR = s.seqR := rfl
@[simp] theorem appendBit_seqPhase (s : State) (q : Slot) (b : Bool) :
    (appendBit s q b).seqPhase = s.seqPhase := rfl
@[simp] theorem appendBit_stimuli (s : State) (q : Slot) (b : Bool) :
    (appendBit s q b).stimuli = s.stimuli := rfl
@[simp] theorem appendBit_faulted (s : State) (q : Slot) (b : Bool) :
    (appendBit s q b).faulted = s.faulted := rfl
@[simp] theorem appendBit_refused (s : State) (q : Slot) (b : Bool) :
    (appendBit s q b).refused = s.refused := rfl
@[simp] theorem appendBit_outcome (s : State) (q : Slot) (b : Bool) :
    (appendBit s q b).outcome = s.outcome := rfl
@[simp] theorem appendBit_returned (s : State) (q : Slot) (b : Bool) :
    (appendBit s q b).returned = s.returned := rfl

/-- The sampler on an input line is the level from outside, on a driven line the driven level (R70). -/
@[simp] theorem sample_input {l : Line} (h : l.dir = .input) (x : Level) : l.sample x = x := by
  simp [Line.sample, h]

@[simp] theorem sample_output {l : Line} (h : l.dir = .output) (x : Level) : l.sample x = l.out := by
  simp [Line.sample, h]

end Sys2Proof.Machine
end

