-- ==== Sys2Proof/Laws/PerInstr.lean ====
section
/-! SUPPORT. What holds of every instruction as syntax, one lemma for each constructor. -/

namespace Sys2Proof.Laws.EncodingRow

/-- The code of an instruction stands in the right space. A stimulus word has its reserved bit 0, is
selected by exactly one row of the opcode map (R58), and carries the reader in its low bits (R55, R56); a
phase is the phase number of the micro-operation (R60). -/
def Statement (i : Instr) : Prop :=
  match encode i with
  | .stimulus w =>
    zOf w = 0 ∧ (opcodeRows.filter (·.selects w)).length = 1 ∧ ∀ r, i.reader? = some r → r = rOf w
  | .phase p => ∃ m : MicroOp, m.instr = i ∧ m.phase = p

theorem init (r : ReaderIx) : Statement (.init r) :=
  ⟨by revert r; decide, by revert r; decide, by rintro _ ⟨⟩; revert r; decide⟩

theorem edge0 (r : ReaderIx) (x : Level) : Statement (.edge0 r x) :=
  ⟨by cases x <;> revert r <;> decide, by cases x <;> revert r <;> decide,
    by rintro _ ⟨⟩; cases x <;> revert r <;> decide⟩

theorem edge1 (r : ReaderIx) (x : Level) : Statement (.edge1 r x) :=
  ⟨by cases x <;> revert r <;> decide, by cases x <;> revert r <;> decide,
    by rintro _ ⟨⟩; cases x <;> revert r <;> decide⟩

theorem rdcode (r : ReaderIx) : Statement (.rdcode r) :=
  ⟨by revert r; decide, by revert r; decide, by rintro _ ⟨⟩; revert r; decide⟩

theorem rdcnt (r : ReaderIx) : Statement (.rdcnt r) :=
  ⟨by revert r; decide, by revert r; decide, by rintro _ ⟨⟩; revert r; decide⟩

theorem seq : Statement .seq := ⟨by decide, by decide, nofun⟩

theorem zHigh : Statement .zHigh := ⟨.zHigh, rfl, rfl⟩

theorem zLow : Statement .zLow := ⟨.zLow, rfl, rfl⟩

theorem zRel : Statement .zRel := ⟨.zRel, rfl, rfl⟩

theorem oHigh : Statement .oHigh := ⟨.oHigh, rfl, rfl⟩

theorem oLow : Statement .oLow := ⟨.oLow, rfl, rfl⟩

theorem oRel : Statement .oRel := ⟨.oRel, rfl, rfl⟩

theorem settle : Statement .settle := ⟨.settle, rfl, rfl⟩

theorem clear : Statement .clear := ⟨.clear, rfl, rfl⟩

end Sys2Proof.Laws.EncodingRow
end

