-- ==== Sys2Proof/Laws/Step.lean ====
section
/-! SUPPORT. What one step can do, said once; and the words of a trace. -/

namespace Sys2Proof.Machine

/-- The state a reserved word leads to (R61 cases 1 to 3). -/
theorem step_reserved {s : State} {w : StimulusWord} {rest : List StimulusWord} {e : Reject}
    (hc : s.cfg.WellFormed) (hs : s.stimuli = w :: rest) (hd : decodeStimulus w = .error e) :
    step s = .next ((s.taking rest).raise (.refuse .reserved)) := by
  unfold step; rw [if_pos hc, fetch_cons hs]; simp only [hd]

/-- Everything a step that answers a next state can have done. -/
theorem step_next_cases {s t : State} (h : step s = .next t) :
    s.cfg.WellFormed ∧
    ((s.stimuli = [] ∧ t = s) ∨
     ∃ w rest, s.stimuli = w :: rest ∧
       ((∃ e, decodeStimulus w = .error e ∧ t = (s.taking rest).raise (.refuse .reserved)) ∨
        ∃ i, decodeStimulus w = .ok i ∧ exec i (s.taking rest) = .next t)) := by
  unfold step at h
  split at h
  case isFalse => cases h
  case isTrue hc =>
    refine ⟨hc, ?_⟩
    cases hs : s.stimuli with
    | nil => rw [fetch_nil hs] at h; cases h; exact .inl ⟨rfl, rfl⟩
    | cons w rest =>
      rw [fetch_cons hs] at h
      refine .inr ⟨w, rest, rfl, ?_⟩
      cases hd : decodeStimulus w with
      | error e => simp only [hd] at h; cases h; exact .inl ⟨e, rfl, rfl⟩
      | ok i => simp only [hd] at h; exact .inr ⟨i, rfl, h⟩

/-- The bits of the rest of a trace follow the bits of its first word. -/
theorem traceBits_cons (r : ReaderIx) (w : StimulusWord) (ws : List StimulusWord) :
    traceBits r (w :: ws) =
      (match decodeStimulus w with
        | .ok i => (validBit r i).toList
        | .error _ => []) ++ traceBits r ws := by
  unfold traceBits
  rw [List.filterMap_cons]
  cases hd : decodeStimulus w with
  | error e => simp
  | ok i => cases hv : validBit r i <;> simp [hv]

@[simp] theorem traceBits_nil (r : ReaderIx) : traceBits r [] = [] := rfl

@[simp] theorem frameValue_nil : frameValue [] = 0 := rfl

/-- The first bit is the most significant one (R22, R35). -/
theorem frameValue_cons (b : Bool) (bits : List Bool) :
    frameValue (b :: bits) = b.toNat * 2 ^ bits.length + frameValue bits := by
  unfold frameValue
  refine (Fin.sum_univ_succ (n := bits.length) _).trans ?_
  congr 1
  refine Finset.sum_congr rfl fun i _ => ?_
  have hi := i.isLt
  have : (b :: bits).length - 1 - (Fin.succ i).val = bits.length - 1 - i.val := by
    simp only [List.length_cons, Fin.val_succ]; omega
  rw [this]
  rfl

/-- Appending one more bit doubles the value and adds the bit: the shift-append of R73. -/
theorem frameValue_append (bits : List Bool) (b : Bool) :
    frameValue (bits ++ [b]) = 2 * frameValue bits + b.toNat := by
  induction bits with
  | nil => simp [frameValue_cons]
  | cons c cs ih =>
    rw [List.cons_append, frameValue_cons, frameValue_cons, ih, List.length_append, List.length_singleton,
      Nat.pow_succ]
    ring

theorem frameValue_lt (bits : List Bool) : frameValue bits < 2 ^ bits.length := by
  induction bits with
  | nil => simp
  | cons b bs ih =>
    rw [frameValue_cons, List.length_cons, Nat.pow_succ]
    cases b <;> simp <;> omega

/-- The first step of a run. -/
theorem run_succ {s t : State} (n : Nat) (h : step s = .next t) : run (n + 1) s = run n t := by
  simp only [run, h]

/-- A run in two parts. -/
theorem run_add {n : Nat} (m : Nat) {s t : State} (h : run n s = .next t) : run (n + m) s = run m t := by
  induction n generalizing s with
  | zero => cases h; rw [Nat.zero_add]
  | succ n ih =>
    rw [Nat.succ_add]
    simp only [run] at h ⊢
    split at h
    · exact ih h
    · cases h
    · cases h

end Sys2Proof.Machine
end

