-- ==== Sys2Proof/Tests/Slice0.lean ====
section
/-! SUPPORT. The model's own tests, one step each. "V<n>" is a vector of 95_test_vectors.md, which derives it
from the rules; a test without one takes its result from the rule it names. The last part gives, for each
statement with hypotheses, concrete values that meet them all. -/

namespace Sys2Proof.Tests

open Sys2Proof.Machine

/-! ### Well-formedness refuses each ill-formed term (R6, R61 case 4) -/

theorem test_default_is_wellFormed : Config.default.WellFormed := by decide

theorem test_no_reader_is_refused : ¬ Config.WellFormed { Config.default with nReaders := 0, lines := [] } := by
  decide

theorem test_four_readers_are_refused :
    ¬ Config.WellFormed
      { Config.default with nReaders := 4, lines := [⟨4, 5⟩, ⟨6, 7⟩, ⟨8, 9⟩, ⟨10, 11⟩] } := by decide

theorem test_narrow_code_is_refused : ¬ Config.WellFormed { Config.default with codeW := 31 } := by decide

theorem test_narrow_count_is_refused : ¬ Config.WellFormed { Config.default with countW := 5 } := by decide

theorem test_missing_pins_are_refused :
    ¬ Config.WellFormed { Config.default with lines := [⟨4, 5⟩, ⟨6, 7⟩] } := by decide

theorem test_shared_pin_is_refused :
    ¬ Config.WellFormed { Config.default with lines := [⟨4, 5⟩, ⟨6, 7⟩, ⟨8, 5⟩] } := by decide

/-- The default with two readers, and with one. -/
def two : Config := { Config.default with nReaders := 2, lines := [⟨4, 5⟩, ⟨6, 7⟩] }
def one : Config := { Config.default with nReaders := 1, lines := [⟨4, 5⟩] }

theorem test_reader_at_the_limit_is_refused :
    Instr.wellFormed two (.init 2) = false ∧ Instr.wellFormed two (.init 1) = true := by decide

theorem test_reader_three_is_refused : Instr.wellFormed Config.default (.edge1 3 .high) = false := by decide

/-! ### Decoding: each word written out from the opcode map (R58) and the phase table (R60) -/

theorem test_decode_init : decodeTableWord 8 0b00010001 = some (.init 1) := by decide
theorem test_decode_edge0 : decodeTableWord 8 0b00100110 = some (.edge0 2 .high) := by decide
theorem test_decode_edge1 : decodeTableWord 8 0b00110001 = some (.edge1 1 .low) := by decide
theorem test_decode_rdcode : decodeTableWord 8 0b01000010 = some (.rdcode 2) := by decide
theorem test_decode_rdcnt : decodeTableWord 8 0b01010001 = some (.rdcnt 1) := by decide
theorem test_decode_seq : decodeTableWord 8 0b01100000 = some .seq := by decide
theorem test_decode_zHigh : decodeTableWord 8 0b000 = some .zHigh := by decide
theorem test_decode_zLow : decodeTableWord 8 0b001 = some .zLow := by decide
theorem test_decode_zRel : decodeTableWord 8 0b010 = some .zRel := by decide
theorem test_decode_oHigh : decodeTableWord 8 0b011 = some .oHigh := by decide
theorem test_decode_oLow : decodeTableWord 8 0b100 = some .oLow := by decide
theorem test_decode_oRel : decodeTableWord 8 0b101 = some .oRel := by decide
theorem test_decode_settle : decodeTableWord 8 0b110 = some .settle := by decide
theorem test_decode_clear : decodeTableWord 8 0b111 = some .clear := by decide

/-- V40 to V46: the reserved words, each with the case of R61 that reserves it. -/
theorem test_decode_rejects :
    [0x00, 0x70, 0xF0].all (fun w => decide (decodeStimulus w = .error .reservedOpcode)) = true ∧
    [0x18, 0x28, 0x2C, 0x68].all (fun w => decide (decodeStimulus w = .error .reservedBit)) = true ∧
    [0x14, 0x44, 0x61, 0x64].all (fun w => decide (decodeStimulus w = .error .fieldNotZero)) = true := by
  decide

/-- The order of R61: an opcode out of the map is case 1 whatever bit 3 says. -/
theorem test_decode_order : decodeStimulus 0x7F = .error .reservedOpcode := by decide

/-- R64: `FRAME 0, 1 0 0 1 1 0 1` is the words of V17a. -/
theorem test_frame_words :
    (Pseudo.frame 0 [true, false, false, true, true, false, true]).words =
      [0x30, 0x20, 0x20, 0x30, 0x30, 0x20, 0x30] := by decide

/-- R63, R64: text with a comment, and a pseudo-instruction. -/
theorem test_assemble :
    assembleLine "EDGE0 1, H   ; spurious".toList = some [.edge0 1 .high] ∧
    assembleLine "RD 0".toList = some [.rdcnt 0, .rdcode 0] ∧
    assembleLine "; comment only".toList = some [] ∧
    assembleLine "INIT 3".toList = none := by decide

/-! ### One step -/

/-- The state a step answers, if it answers one. -/
def nextOf : Host.Outcome State Fault Refusal → Option State
  | .next t => some t
  | .fault _ => none
  | .refused _ => none

/-- Power-on with these contents `code/cnt`, and with one stimulus word to come. -/
def holding (r0 r1 r2 : Nat × Nat) (w : StimulusWord) : State :=
  { State.powerOn Config.default #v[r0, r1, r2] with stimuli := [w] }

/-- The registers of reader `q` and the outcome, after a step. -/
def regsAfter (q : Slot) (s : State) : Option (Nat × Nat × StepOutcome) :=
  (nextOf (step s)).map fun t => ((t.reader q).code, (t.reader q).cnt, t.outcome)

/-- The sequencer registers and the outcome, after a step. -/
def sequencerAfter (s : State) : Option (Bool × ReaderIx × Phase × StepOutcome) :=
  (nextOf (step s)).map fun t => (t.busy, t.seqR, t.seqPhase, t.outcome)

/-- The lines of reader 0 and the sequencer's phase, after a step. -/
def linesAfter (s : State) : Option (Line × Line × Phase) :=
  (nextOf (step s)).map fun t => ((t.reader 0).zeroLine, (t.reader 0).oneLine, t.seqPhase)

/-- `s` with the sequencer at phase `p` of reader `r`. -/
def atPhase (r : ReaderIx) (p : Phase) (s : State) : State :=
  { s with busy := true, seqR := r, seqPhase := p }

/-- `s` with these lines of reader 0. -/
def withLines (z o : Line) (s : State) : State :=
  s.setReader 0 { s.reader 0 with zeroLine := z, oneLine := o }

/-- V10b. -/
theorem test_edge0_saturates :
    regsAfter 0 (holding (0xFFFFFFFF, 65535) (0, 0) (0, 0) 0x20) = some (0xFFFFFFFE, 65535, .ok) := by decide

/-- V24. -/
theorem test_edge0_during_init_is_a_fault :
    (nextOf (step (atPhase 0 2 (holding (5, 3) (0, 0) (0, 0) 0x24)))).map
      (fun t => (t.reader 0, t.outcome, t.faulted, t.refused)) =
    some (⟨5, 3, Line.powerOn, Line.powerOn⟩, .fault .initRace, true, false) := by decide

/-- V7: the top bit is lost. -/
theorem test_edge1_drops_the_top_bit :
    regsAfter 1 (holding (0, 0) (0x80000000, 32) (0, 0) 0x31) = some (1, 33, .ok) := by decide

/-- V9: the count reaches its maximum. -/
theorem test_edge1_reaches_the_limit :
    regsAfter 0 (holding (0x7FFFFFFF, 65534) (0, 0) (0, 0) 0x30) = some (0xFFFFFFFF, 65535, .ok) := by decide

/-- V20, step 0. -/
theorem test_init_starts : sequencerAfter (holding (7, 9) (0, 0) (0, 0) 0x10) = some (true, 0, 0, .ok) := by
  decide

/-- V22. -/
theorem test_init_while_busy :
    sequencerAfter (atPhase 0 2 (holding (0, 0) (0, 0) (0, 0) 0x11)) = some (true, 0, 2, .refuse .busy) := by
  decide

/-- V33. -/
theorem test_rdcode_returns_all_bits :
    (nextOf (step (holding (0, 0) (0xFFFFFFFE, 65535) (0, 0) 0x41))).map (·.returned) =
      some (some 0xFFFFFFFE) := by decide

/-- V34: reads are allowed during an `INIT`. -/
theorem test_rdcnt_while_busy :
    (nextOf (step (atPhase 1 3 (holding (0, 0) (6, 3) (0, 0) 0x51)))).map (fun t => (t.returned, t.seqPhase)) =
      some (some 3, 3) := by decide

/-- V23. -/
theorem test_seq_while_idle :
    sequencerAfter (holding (0, 0) (0, 0) (0, 0) 0x60) = some (false, 0, 0, .refuse .notBusy) := by decide

/-- V47, V49: reader 3. -/
theorem test_reader_three_is_bad :
    [0x13, 0x23, 0x43, 0x37].all (fun w =>
      decide (regsAfter 0 (holding (5, 3) (0, 0) (0, 0) w) = some (5, 3, .refuse .badReader))) = true := by
  decide

/-- V20, step 1. -/
theorem test_zHigh : linesAfter (atPhase 0 0 (holding (7, 9) (0, 0) (0, 0) 0x60)) =
    some (⟨.output, .high, false⟩, ⟨.input, .low, false⟩, 1) := by decide

/-- V20, step 2. -/
theorem test_zLow :
    linesAfter (atPhase 0 1 (withLines ⟨.output, .high, false⟩ Line.powerOn
      (holding (7, 9) (0, 0) (0, 0) 0x60))) =
    some (⟨.output, .low, false⟩, ⟨.input, .low, false⟩, 2) := by decide

/-- V20, step 3. -/
theorem test_zRel :
    linesAfter (atPhase 0 2 (withLines ⟨.output, .low, false⟩ Line.powerOn
      (holding (7, 9) (0, 0) (0, 0) 0x60))) =
    some (⟨.input, .low, true⟩, ⟨.input, .low, false⟩, 3) := by decide

/-- V21: the one-line with its pull-up on goes to output, pull-up off. -/
theorem test_oHigh :
    linesAfter (atPhase 0 3 (withLines ⟨.input, .low, true⟩ ⟨.input, .low, true⟩
      (holding (7, 9) (0, 0) (0, 0) 0x60))) =
    some (⟨.input, .low, true⟩, ⟨.output, .high, false⟩, 4) := by decide

/-- V20, step 5. -/
theorem test_oLow :
    linesAfter (atPhase 0 4 (withLines ⟨.input, .low, true⟩ ⟨.output, .high, false⟩
      (holding (7, 9) (0, 0) (0, 0) 0x60))) =
    some (⟨.input, .low, true⟩, ⟨.output, .low, false⟩, 5) := by decide

/-- V20, step 6. -/
theorem test_oRel :
    linesAfter (atPhase 0 5 (withLines ⟨.input, .low, true⟩ ⟨.output, .low, false⟩
      (holding (7, 9) (0, 0) (0, 0) 0x60))) =
    some (⟨.input, .low, true⟩, ⟨.input, .low, true⟩, 6) := by decide

/-- R88, with the default delay of R5. -/
theorem test_settle :
    (nextOf (step (atPhase 0 6 (holding (7, 9) (0, 0) (0, 0) 0x60)))).map
      (fun t => (t.delayReq, t.seqPhase, t.busy, (t.reader 0).cnt)) = some (some 10, 7, true, 9) := by decide

/-- V26. -/
theorem test_clear :
    (nextOf (step (atPhase 1 7 (holding (5, 3) (0x2AAAAAA, 26) (7, 9) 0x60)))).map
      (fun t => ((t.reader 1).code, (t.reader 1).cnt, t.busy, t.seqPhase, (t.reader 0).cnt, (t.reader 2).cnt)) =
    some (0, 0, false, 7, 3, 9) := by decide

/-- R70, V15: the sampler. -/
theorem test_sampler :
    (⟨.input, .low, true⟩ : Line).sample .high = .high ∧ (⟨.output, .low, false⟩ : Line).sample .high = .low ∧
    (⟨.output, .high, false⟩ : Line).sample .low = .high := by decide

/-- R13: the pins of the default configuration. -/
theorem test_lineOfPin :
    lineOfPin Config.default 4 = some (0, .zero) ∧ lineOfPin Config.default 9 = some (2, .one) ∧
    lineOfPin Config.default 3 = none := by decide

/-- R65. -/
theorem test_control_encodings :
    Dir.input.bit = 0 ∧ Dir.output.bit = 1 ∧ pullUpBit false = 0 ∧ pullUpBit true = 1 := by decide

/-- A stimulus row's word, placed after reset, is the next step's instruction. -/
theorem test_withFetchWord_stimulus :
    (nextOf (step (State.reset.withFetchWord 8 0x31))).map (fun t => ((t.reader 1).code, (t.reader 1).cnt)) =
      some (1, 1) := by decide

/-- A phase row's code, placed after reset, is the next step's micro-operation. -/
theorem test_withFetchWord_phase :
    (nextOf (step (State.reset.withFetchWord 8 0b011))).map (fun t => ((t.reader 0).oneLine, t.seqPhase)) =
      some (⟨.output, .high, false⟩, 4) := by decide

/-! ### Witnesses: values that meet the hypotheses of each statement -/

/-- Power-on holding `5/3`, `6/3`, `0/0`, with these words to come. -/
def start (ws : List StimulusWord) : State :=
  { State.powerOn Config.default #v[(5, 3), (6, 3), (0, 0)] with stimuli := ws }

/-- A run's state, where it reaches one. -/
def runOf (n : Nat) (s : State) : State := (nextOf (run n s)).getD s

/-- Reader 0 under initialization, at phase `n`. -/
def initAt (n : Nat) : State := runOf (n + 1) (start (0x10 :: List.replicate n 0x60))

theorem witness_EncodeOfDecodeIsTheCode :
    decode (.stimulus 0x26) = .ok (.edge0 2 .high) ∧ decode (.phase 7) = .ok .clear := by decide

theorem witness_AcceptedWordCounts :
    Config.default.nReaders = 3 ∧ two.nReaders = 2 ∧ one.nReaders = 1 ∧ two.WellFormed ∧ one.WellFormed := by
  decide

theorem witness_EdgeWordOperandsAndBitFour :
    decodeStimulus 0x26 = .ok (LineSel.zero.edge 2 .high) ∧
    decodeStimulus 0x33 = .ok (LineSel.one.edge 3 .low) := by decide

theorem witness_AssemblerReadsTheSyntaxTable :
    textOf (.edge1 2 .low) = some "EDGE1 2, L".toList ∧ textOf .seq = some "SEQ".toList ∧
    encode (.init 2) = .stimulus 0x12 ∧ (Instr.init 2).reader? ≠ some 3 := by decide

theorem witness_StepRunsTheDecodedInstruction :
    (start [0x30, 0x20]).cfg.WellFormed ∧ (start [0x30, 0x20]).stimuli = 0x30 :: [0x20] ∧
    decodeStimulus 0x30 = .ok (.edge1 0 .low) := by decide

theorem witness_StepWithoutStimulusChangesNothing :
    (start []).cfg.WellFormed ∧ (start []).stimuli = [] := by decide

theorem witness_IllFormedConfigurationIsRefused :
    State.reset.cfg.WellFormed ∧ ¬ Config.WellFormed { Config.default with codeW := 31 } := by decide

/-- The least and the greatest word of each clause. -/
theorem witness_ReservedWordIsRefusedWithoutEffect :
    (start [0x00]).cfg.WellFormed ∧ (start [0x00]).stimuli = 0x00 :: [] ∧
    opOf 0x0F = 0 ∧ 7 ≤ opOf 0x70 ∧ 7 ≤ opOf 0xFF ∧ zOf 0x18 = 1 ∧ zOf 0x68 = 1 ∧
    (opOf 0x64 = 6 ∧ xOf 0x64 = 1) ∧ (opOf 0x61 = 6 ∧ rOf 0x61 ≠ 0) ∧
    (opOf 0x14 = 1 ∧ xOf 0x14 = 1) ∧ (opOf 0x44 = 4 ∧ xOf 0x44 = 1) ∧ (opOf 0x57 = 5 ∧ xOf 0x57 = 1) := by
  decide

theorem witness_AbsentReaderIsRefusedWithoutEffect :
    (Instr.edge0 3 .low).reader? = some 3 ∧ (Instr.init 2).reader? = some 2 ∧
    two.nReaders ≤ (2 : ReaderIx).toNat := by decide

theorem witness_ValidEdgeAppendsAndCounts :
    readerSlot (start []).cfg 2 = some 2 ∧ (start []).busy = false ∧ sample (start []) 2 .zero .low = .low ∧
    sample (start []) 2 .one .low = .low ∧ (initAt 1).busy = true ∧ (initAt 1).seqR ≠ 2 ∧
    readerSlot (initAt 1).cfg 2 = some 2 := by decide

theorem witness_EdgeBitIsFixedByTheLine :
    (start []).cfg.WellFormed ∧ readerSlot (start []).cfg 0 = some 0 ∧ (start []).busy = false ∧
    sample (start []) 0 .zero .low = .low ∧ sample (start []) 0 .one .low = .low := by decide

theorem witness_SpuriousEdgeChangesNothing :
    readerSlot (start []).cfg 0 = some 0 ∧ (start []).busy = false ∧ sample (start []) 0 .zero .high = .high ∧
    sample (start []) 0 .one .high = .high ∧ (((start []).reader 0).line .one).dir = .input := by decide

theorem witness_EdgeOfReaderUnderInitializationIsAFault :
    (readerSlot (initAt 0).cfg 0).isSome = true ∧ (initAt 0).busy = true ∧ (initAt 0).seqR = 0 := by decide

theorem witness_IncrementSaturates :
    65534 < 2 ^ Config.default.countW - 1 ∧ 2 ^ Config.default.countW - 1 ≤ 65535 ∧
    65535 < 2 ^ Config.default.countW := by decide

/-- A valid edge in IDLE (reader 2) and in ACCUMULATING (reader 0), and a spurious one. -/
theorem witness_ReaderStateTransitions_edges :
    (start []).cfg.WellFormed ∧ readerSlot (start []).cfg 0 = some 0 ∧ readerSlot (start []).cfg 2 = some 2 ∧
    (start []).busy = false ∧ sample (start []) 0 .zero .low = .low ∧ sample (start []) 2 .one .low = .low ∧
    ((start []).reader 0).fsm = .accumulating ∧ ((start []).reader 2).fsm = .idle ∧
    sample (start []) 0 .zero .high = .high := by decide

theorem witness_ReaderStateTransitions_clear :
    (initAt 7).busy = true ∧ (initAt 7).seqR = 0 ∧ (initAt 7).seqPhase = 7 ∧
    ((initAt 7).reader 0).fsm = .accumulating ∧
    (nextOf (exec .seq (initAt 7))).map (fun t => (t.reader 0).fsm) = some .idle := by decide

theorem witness_ReaderStateTransitions_others :
    (∃ t, exec (.rdcnt 0) (start []) = .next t) ∧ edgeOf 0 (.rdcnt 0) = false ∧
    (∃ t, exec .seq (initAt 6) = .next t) ∧ edgeOf 0 .seq = false ∧ (initAt 6).seqPhase ≠ 7 :=
  ⟨⟨_, rfl⟩, by decide, ⟨_, rfl⟩, by decide, by decide⟩

/-- Exactly `CODE_W` bits, with a word of another reader and a reserved word among them. -/
theorem witness_AccumulatorHoldsTheBitsInArrivalOrder :
    (start (0x21 :: 0x00 :: List.replicate 32 0x32)).Inv ∧ readerSlot (start []).cfg 2 = some 2 ∧
    (start []).busy = false ∧ ((start []).reader 2).code = 0 ∧ ((start []).reader 2).cnt = 0 ∧
    (0x21 :: 0x00 :: List.replicate 32 0x32).all (fun w => decide (decodeStimulus w ≠ .ok (.init 2))) = true ∧
    (traceBits 2 (0x21 :: 0x00 :: List.replicate 32 0x32)).length = 32 := by decide

/-- One bit more than `CODE_W`. -/
theorem witness_AccumulatorHoldsTheBitsInArrivalOrder_long :
    (start (List.replicate 33 0x32)).Inv ∧
    (List.replicate 33 0x32).all (fun w => decide (decodeStimulus w ≠ .ok (.init 2))) = true ∧
    (traceBits 2 (List.replicate 33 0x32)).length = 33 := by decide

/-- From contents that are not 0, and during the initialization of another reader. -/
theorem witness_TraceAppendsItsValidBitsToAnyContents :
    (start [0x30, 0x20]).Inv ∧ readerSlot (start []).cfg 0 = some 0 ∧ (start []).busy = false ∧
    decodeStimulus 0x30 ≠ .ok (.init 0) ∧ decodeStimulus 0x20 ≠ .ok (.init 0) ∧ (initAt 3).seqR ≠ 1 := by decide

theorem witness_SequenceGoesThroughTheTableOfLines :
    (start [0x10]).cfg.WellFormed ∧ readerSlot (start []).cfg 0 = some 0 ∧ (start []).busy = false ∧
    (start [0x10]).stimuli = (Instr.init 0).word :: List.replicate 0 0x60 ++ [] ∧
    (start (0x10 :: List.replicate 8 0x60)).stimuli = (Instr.init 0).word :: List.replicate 8 0x60 ++ [] := by
  decide

theorem witness_InitStartsTheSequencer :
    (readerSlot (start []).cfg 2).isSome = true ∧ (start []).busy = false := by decide

theorem witness_InitWhileBusyAndSeqWhileIdleAreRefused :
    (readerSlot (initAt 0).cfg 1).isSome = true ∧ (initAt 0).busy = true ∧ (start []).busy = false := by decide

/-- Each phase from 0 to 7. -/
theorem witness_SeqPerformsTheMicroOperationOfItsPhase :
    (List.range 8).all (fun n => decide ((initAt n).busy = true ∧
      (readerSlot (initAt n).cfg (initAt n).seqR).isSome = true ∧ (initAt n).seqPhase = BitVec.ofNat 3 n)) =
      true := by decide

theorem witness_DriveHighMicroOperations :
    readerSlot (initAt 0).cfg (initAt 0).seqR = some 0 ∧ (initAt 0).seqPhase = 0 ∧
    readerSlot (initAt 3).cfg (initAt 3).seqR = some 0 ∧ (initAt 3).seqPhase = 3 := by decide

theorem witness_DriveLowMicroOperations :
    readerSlot (initAt 1).cfg (initAt 1).seqR = some 0 ∧ (initAt 1).seqPhase = 1 ∧
    ((initAt 1).reader 0).line .zero = ⟨.output, .high, false⟩ ∧
    readerSlot (initAt 4).cfg (initAt 4).seqR = some 0 ∧ (initAt 4).seqPhase = 4 ∧
    ((initAt 4).reader 0).line .one = ⟨.output, .high, false⟩ := by decide

theorem witness_DriveLowMicroOperations_next :
    (∃ t, exec .zLow (initAt 1) = .next t) ∧ (∃ t, exec .oLow (initAt 4) = .next t) :=
  ⟨⟨_, rfl⟩, ⟨_, rfl⟩⟩

theorem witness_ReleaseMicroOperations :
    readerSlot (initAt 2).cfg (initAt 2).seqR = some 0 ∧ (initAt 2).seqPhase = 2 ∧
    readerSlot (initAt 5).cfg (initAt 5).seqR = some 0 ∧ (initAt 5).seqPhase = 5 := by decide

theorem witness_SettleRequestsTheDelay :
    (readerSlot (initAt 6).cfg (initAt 6).seqR).isSome = true ∧ (initAt 6).seqPhase = 6 := by decide

theorem witness_ClearZeroesTheReader :
    readerSlot (initAt 7).cfg (initAt 7).seqR = some 0 ∧ (initAt 7).seqPhase = 7 := by decide

/-- States no run reaches: that is the point of the statement. -/
theorem witness_MicroOperationOnAbsentReaderStops :
    readerSlot (atPhase 3 0 (start [])).cfg 3 = none ∧ (atPhase 3 0 (start [])).busy = true ∧
    readerSlot two 2 = none := by decide

theorem witness_InvariantHoldsAfterPowerOn :
    two.WellFormed ∧ ∀ q : Slot, (#v[(2 ^ 32 - 1, 2 ^ 16 - 1), (6, 3), (0, 0)] : Vector (Nat × Nat) 3)[q].1 <
        2 ^ two.codeW ∧
      (#v[(2 ^ 32 - 1, 2 ^ 16 - 1), (6, 3), (0, 0)] : Vector (Nat × Nat) 3)[q].2 < 2 ^ two.countW := by decide

theorem witness_StepKeepsTheInvariantAndNeverStops :
    (start [0x30]).Inv ∧ (initAt 0).Inv ∧ (initAt 5).Inv := ⟨by decide, by decide, by decide⟩

/-- The four phases in which a line is driven, and a reader that is not under initialization. -/
theorem witness_LinesAreDrivenOnlyDuringTheirInitialization :
    ((initAt 1).Inv ∧ ((initAt 1).reader 0).zeroLine.dir = .output) ∧
    ((initAt 2).Inv ∧ ((initAt 2).reader 0).zeroLine.dir = .output) ∧
    ((initAt 4).Inv ∧ ((initAt 4).reader 0).oneLine.dir = .output) ∧
    ((initAt 5).Inv ∧ ((initAt 5).reader 0).oneLine.dir = .output) ∧ (initAt 5).seqR ≠ slotIx 1 :=
  ⟨by decide, by decide, by decide, by decide, by decide⟩

/-- With an edge of reader 1, a read and a second `INIT` between the sequencer steps. -/
theorem witness_InitializationLeavesTheReaderArmed :
    (start (0x10 :: ([0x60, 0x31, 0x60, 0x40, 0x11] ++ List.replicate 5 0x60) ++ [0x60])).Inv ∧
    readerSlot (start []).cfg 0 = some 0 ∧ (start []).busy = false ∧
    ([0x60, 0x31, 0x60, 0x40, 0x11] ++ List.replicate 5 0x60).all (fun w => !(onWord (edgeOf 0) w)) = true ∧
    (([0x60, 0x31, 0x60, 0x40, 0x11] ++ List.replicate 5 0x60).filter
      fun w : StimulusWord => w == 0x60).length = 7 ∧
    (Instr.init 0).word = 0x10 ∧ readerSlot (start []).cfg 1 = some 1 := by decide

/-- K = 3 and M = 2, as in program P3. -/
theorem witness_RearmLeavesNoResidue :
    (start ((Pseudo.frame 2 [true, true, false]).words ++ (Pseudo.initw 2).words ++
      (Pseudo.frame 2 [false, true]).words ++ [])).Inv ∧
    readerSlot (start []).cfg 2 = some 2 ∧ (start []).busy = false := by decide

theorem witness_ReadsReturnTheWholeRegister :
    (start []).InRange ∧ readerSlot (start []).cfg 1 = some 1 := by decide

theorem witness_ReadsHaveNoSideEffect :
    (readerSlot (start []).cfg 1).isSome = true ∧ (readerSlot (initAt 3).cfg 0).isSome = true := by decide

theorem witness_MarksAreSticky :
    (∃ t, step { start [0x30] with faulted := true, refused := true } = .next t) ∧
    ({ start [0x30] with faulted := true, refused := true } : State).faulted = true := ⟨⟨_, rfl⟩, rfl⟩

theorem witness_MarksChangeNoResult : ∃ t, step (start [0x30]) = .next t := ⟨_, rfl⟩

/-- An outcome of each kind. -/
theorem witness_OutcomesSetTheirMarks :
    (nextOf (step (start [0x30]))).map (·.outcome) = some .ok ∧
    (nextOf (step { initAt 1 with stimuli := [0x20] })).map (·.outcome) = some (.fault .initRace) ∧
    (nextOf (step (start [0x60]))).map (·.outcome) = some (.refuse .notBusy) := by decide

theorem witness_PinsAreFixedAndNameTheirLines :
    (∃ t, exec (.edge1 0 .low) (start []) = .next t) ∧ Config.default.WellFormed := ⟨⟨_, rfl⟩, by decide⟩

theorem witness_EdgesAreRoutedByPin :
    Config.default.WellFormed ∧ Config.default.lines[(2 : ReaderIx).toNat]? = some ⟨8, 9⟩ ∧
    (3 : PinId) ∉ Config.default.pins := by decide

theorem witness_CountNeverDecreasesBetweenClears :
    (start [0x30]).InRange ∧ (∃ t, step (start [0x30]) = .next t) ∧ (start [0x30]).stimuli.head? ≠ some 0x60 :=
  ⟨by decide, ⟨_, rfl⟩, by decide⟩

theorem witness_AgentsKeepToTheirRights :
    (∃ t, exec (.edge0 1 .low) (start []) = .next t) ∧ edgeOf 0 (.edge0 1 .low) = false ∧
    (∃ t, exec .zHigh (initAt 0) = .next t) ∧ (initAt 0).seqR ≠ slotIx 1 :=
  ⟨⟨_, rfl⟩, by decide, ⟨_, rfl⟩, by decide⟩

/-- `SEQ` at phase 6, which must leave the data registers of its reader alone, and at phase 7, its CLEAR. -/
theorem witness_AgentsKeepToTheirRights_clear :
    (∃ t, exec .seq (initAt 6) = .next t) ∧ (initAt 6).seqR = slotIx 0 ∧ (initAt 6).seqPhase ≠ 7 ∧
    edgeOf (slotIx 0) .seq = false ∧ (∃ t, exec .seq (initAt 7) = .next t) ∧ (initAt 7).seqR = slotIx 0 ∧
    (initAt 7).busy = true ∧ (initAt 7).seqPhase = 7 :=
  ⟨⟨_, rfl⟩, by decide, by decide, by decide, ⟨_, rfl⟩, by decide, by decide, by decide⟩

theorem witness_StepReadsNothingOfOtherReaders :
    (start [0x30]).stimuli = 0x30 :: [] ∧ (start [0x30]).busy = false ∧
    decodeStimulus 0x30 = .ok (.edge1 0 .low) ∧ (Instr.edge1 0 .low).reader? ≠ some (slotIx 1) ∧
    (nextOf (step (start [0x30]))).isSome = true := by decide

/-- Reader 0 under initialization, as in V25: an edge of reader 1, a read of reader 1, an `INIT` of reader 0
(refused as Busy) and a reserved word; no word of them is `SEQ`. -/
theorem witness_StepReadsNothingOfOtherReaders_busy :
    (initAt 2).busy = true ∧ (initAt 2).seqR = slotIx 0 ∧
    [0x21, 0x51, 0x10, 0x00].all (fun w => decide (w ≠ 0x60 ∧
      onWord (fun i => decide (i.reader? = some (slotIx 0) ∧ i ≠ .init (slotIx 0))) w = false ∧
      (nextOf (step { initAt 2 with stimuli := [w] })).isSome = true)) = true := by decide

/-- `SEQ` while another reader is under initialization. -/
theorem witness_StepReadsNothingOfOtherReaders_seq :
    (initAt 2).seqR ≠ slotIx 1 ∧ decodeStimulus 0x60 = .ok .seq ∧ Instr.seq.reader? = none ∧
    (nextOf (step { initAt 2 with stimuli := [0x60] })).isSome = true := by decide

theorem witness_EdgesOfDifferentReadersCommute :
    (readerSlot (start []).cfg 0).isSome = true ∧ (readerSlot (start []).cfg 2).isSome = true ∧
    (0 : ReaderIx) ≠ 2 := by decide

/-- Readers 1 and 2 of a configuration with one reader. -/
theorem witness_AbsentReadersAreNeverTouched :
    (∃ t, step { State.powerOn one #v[(0, 0), (0, 0), (0, 0)] with stimuli := [0x31] } = .next t) ∧
    one.nReaders ≤ (1 : Slot).val ∧ one.nReaders ≤ (2 : Slot).val := ⟨⟨_, rfl⟩, by decide, by decide⟩

end Sys2Proof.Tests
end

/-! The pins (10_state.md R13): an instruction's meaning neither writes them nor depends on them, and
`LineOfPin` inverts the assignment of pins to lines. -/

namespace Sys2Proof.Machine

/-! ### Every instruction is one of a stimulus word or of a phase -/

/-- The two code spaces together hold every instruction (R58, R60). -/
theorem stimulus_or_microOp (i : Instr) :
    (∃ w, decodeStimulus w = .ok i) ∨ ∃ m : MicroOp, i = m.instr := by
  cases i with
  | init r => exact .inl ⟨(Instr.init r).word, by revert r; decide⟩
  | edge0 r x => exact .inl ⟨(Instr.edge0 r x).word, by cases x <;> revert r <;> decide⟩
  | edge1 r x => exact .inl ⟨(Instr.edge1 r x).word, by cases x <;> revert r <;> decide⟩
  | rdcode r => exact .inl ⟨(Instr.rdcode r).word, by revert r; decide⟩
  | rdcnt r => exact .inl ⟨(Instr.rdcnt r).word, by revert r; decide⟩
  | seq => exact .inl ⟨Instr.seq.word, by decide⟩
  | zHigh => exact .inr ⟨.zHigh, rfl⟩
  | zLow => exact .inr ⟨.zLow, rfl⟩
  | zRel => exact .inr ⟨.zRel, rfl⟩
  | oHigh => exact .inr ⟨.oHigh, rfl⟩
  | oLow => exact .inr ⟨.oLow, rfl⟩
  | oRel => exact .inr ⟨.oRel, rfl⟩
  | settle => exact .inr ⟨.settle, rfl⟩
  | clear => exact .inr ⟨.clear, rfl⟩

/-- No operation writes the configuration (R13, R25). -/
theorem exec_keeps_cfg {i : Instr} {s t : State} (h : exec i s = .next t) : t.cfg = s.cfg := by
  obtain ⟨w, hw⟩ | ⟨m, rfl⟩ := stimulus_or_microOp i
  · have effect := exec_effect hw s
    rw [h] at effect
    cases effect <;> simp
  · rw [exec_microOp, microStep_eq_next] at h
    obtain ⟨q, -, rfl⟩ := h
    simp

/-! ### The same state with other pins -/

/-- The state with the pins of its lines replaced. -/
def State.withLines (s : State) (lines : List PinPair) : State :=
  { s with cfg := { s.cfg with lines := lines } }

section
variable (s : State) (lines : List PinPair)

@[simp] theorem readerSlot_withLines (r : ReaderIx) :
    readerSlot (s.withLines lines).cfg r = readerSlot s.cfg r := rfl
@[simp] theorem busy_withLines : (s.withLines lines).busy = s.busy := rfl
@[simp] theorem initializing_withLines (r : ReaderIx) :
    (s.withLines lines).initializing r = s.initializing r := rfl
@[simp] theorem sample_withLines (q : Slot) (k : LineSel) (x : Level) :
    sample (s.withLines lines) q k x = sample s q k x := rfl
@[simp] theorem memRead_withLines (addr : Selector) (n : Nat) :
    memRead (s.withLines lines) addr n = memRead s addr n := rfl

@[simp] theorem raise_withLines (o : StepOutcome) :
    (s.withLines lines).raise o = (s.raise o).withLines lines := by cases o <;> rfl
@[simp] theorem returns_withLines (v : Nat) :
    (s.withLines lines).returns v = (s.returns v).withLines lines := rfl
@[simp] theorem startInit_withLines (r : ReaderIx) :
    (s.withLines lines).startInit r = (s.startInit r).withLines lines := rfl
@[simp] theorem appendBit_withLines (q : Slot) (b : Bool) :
    appendBit (s.withLines lines) q b = (appendBit s q b).withLines lines := rfl
@[simp] theorem microAct_withLines (m : MicroOp) (q : Slot) :
    microAct m q (s.withLines lines) = (microAct m q s).withLines lines := by cases m <;> rfl
@[simp] theorem advance_withLines :
    (s.withLines lines).advance = s.advance.withLines lines := by
  by_cases h : s.seqPhase = 7
  · rw [advance_last h, advance_last (s := s.withLines lines) h]; rfl
  · rw [advance_earlier h, advance_earlier (s := s.withLines lines) h]; rfl

/-- An edge operation takes its line from the instruction, not from a pin (R71, R72). -/
theorem edgeStep_withLines (k : LineSel) (r : ReaderIx) (x : Level) :
    edgeStep k r x (s.withLines lines) = (edgeStep k r x s).withLines lines := by
  unfold edgeStep
  simp only [readerSlot_withLines]
  cases readerSlot s.cfg r with
  | none => simp
  | some q => cases hi : s.initializing r <;> cases hx : sample s q k x <;> simp [hi, hx]

theorem readStep_withLines (addr : Selector) (n : Nat) :
    readStep addr n (s.withLines lines) = (readStep addr n s).withLines lines := by
  unfold readStep
  cases h : memRead s addr n <;> simp [h]

variable {s} {t : State}

theorem microStep_withLines {m : MicroOp} (h : microStep (microAct m) s = .next t) :
    microStep (microAct m) (s.withLines lines) = .next (t.withLines lines) := by
  obtain ⟨q, hq, rfl⟩ := microStep_eq_next.1 h
  exact microStep_eq_next.2 ⟨q, hq, by simp⟩

theorem execInit_withLines {r : ReaderIx} (h : execInit r s = .next t) :
    execInit r (s.withLines lines) = .next (t.withLines lines) := by
  obtain ⟨hq, he⟩ | ⟨hq, hb, he⟩ | ⟨hq, hb, he⟩ := execInit_cases r s <;> (rw [he] at h; cases h)
  · simp [execInit, hq]
  · obtain ⟨q, hq⟩ := Option.isSome_iff_exists.1 hq
    simp [execInit, hq, hb]
  · obtain ⟨q, hq⟩ := Option.isSome_iff_exists.1 hq
    simp [execInit, hq, hb]

theorem execSeq_withLines (h : execSeq s = .next t) :
    execSeq (s.withLines lines) = .next (t.withLines lines) := by
  cases hb : s.busy with
  | false =>
    rw [execSeq_idle hb] at h
    cases h
    rw [execSeq_idle (s := s.withLines lines) hb, raise_withLines]
  | true =>
    rw [execSeq_busy hb] at h
    rw [execSeq_busy (s := s.withLines lines) hb]
    exact microStep_withLines lines h

/-- No operation reads the pins: with other pins the same instruction answers the same next state, those
pins kept (R13). -/
theorem exec_withLines {i : Instr} (h : exec i s = .next t) :
    exec i (s.withLines lines) = .next (t.withLines lines) := by
  cases i with
  | init r => exact execInit_withLines lines h
  | edge0 r x => cases h; exact congrArg _ (edgeStep_withLines s lines .zero r x)
  | edge1 r x => cases h; exact congrArg _ (edgeStep_withLines s lines .one r x)
  | rdcode r => cases h; exact congrArg _ (readStep_withLines s lines (selector r 0) s.cfg.codeW)
  | rdcnt r => cases h; exact congrArg _ (readStep_withLines s lines (selector r 1) s.cfg.countW)
  | seq => exact execSeq_withLines lines h
  | zHigh => exact microStep_withLines (m := .zHigh) lines h
  | zLow => exact microStep_withLines (m := .zLow) lines h
  | zRel => exact microStep_withLines (m := .zRel) lines h
  | oHigh => exact microStep_withLines (m := .oHigh) lines h
  | oLow => exact microStep_withLines (m := .oLow) lines h
  | oRel => exact microStep_withLines (m := .oRel) lines h
  | settle => exact microStep_withLines (m := .settle) lines h
  | clear => exact microStep_withLines (m := .clear) lines h

end

/-! ### `LineOfPin` -/

/-- The pins of a list of pairs; those of a configuration are `pinsOf cfg.lines`. -/
def pinsOf (lines : List PinPair) : List PinId := lines.flatMap fun p => [p.zero, p.one]

theorem pins_eq_pinsOf (cfg : Config) : cfg.pins = pinsOf cfg.lines := rfl

@[simp] theorem pinsOf_cons (pair : PinPair) (rest : List PinPair) :
    pinsOf (pair :: rest) = pair.zero :: pair.one :: pinsOf rest := rfl

theorem nodup_pinsOf_cons {pair : PinPair} {rest : List PinPair} :
    (pinsOf (pair :: rest)).Nodup ↔ pair.zero ≠ pair.one ∧ pair.zero ∉ pinsOf rest ∧
      pair.one ∉ pinsOf rest ∧ (pinsOf rest).Nodup := by
  simp [and_assoc]

theorem pinOf_mem_pinsOf {lines : List PinPair} {j : Nat} {pair : PinPair}
    (h : lines[j]? = some pair) (k : LineSel) : pinOf pair k ∈ pinsOf lines :=
  List.mem_flatMap.2 ⟨pair, List.mem_of_getElem? h, by cases k <;> simp [pinOf]⟩

/-- The line that the search finds has the pin that was looked for. -/
theorem pin_of_lineOfPinFrom {p : PinId} {k : LineSel} {r : Nat} :
    ∀ {n : Nat} {lines : List PinPair}, lineOfPinFrom p n lines = some (r, k) →
      ∃ j pair, r = n + j ∧ lines[j]? = some pair ∧ p = pinOf pair k
  | n, head :: rest, h => by
    unfold lineOfPinFrom at h
    split at h
    next hz => cases h; exact ⟨0, head, rfl, rfl, hz⟩
    next =>
      split at h
      next ho => cases h; exact ⟨0, head, rfl, rfl, ho⟩
      next =>
        obtain ⟨j, pair, hr, hj, hp⟩ := pin_of_lineOfPinFrom h
        exact ⟨j + 1, pair, by omega, hj, hp⟩

/-- Where all pins are distinct, the search for the pin of a line finds that line and no earlier one. -/
theorem lineOfPinFrom_pinOf {pair : PinPair} (k : LineSel) :
    ∀ {n j : Nat} {lines : List PinPair}, (pinsOf lines).Nodup → lines[j]? = some pair →
      lineOfPinFrom (pinOf pair k) n lines = some (n + j, k)
  | n, 0, head :: rest, hnd, hj => by
    obtain rfl : head = pair := by simpa using hj
    obtain ⟨hne, -⟩ := nodup_pinsOf_cons.1 hnd
    cases k <;> simp [lineOfPinFrom, pinOf, hne.symm]
  | n, j + 1, head :: rest, hnd, hj => by
    have hmem := pinOf_mem_pinsOf (lines := rest) hj k
    obtain ⟨-, hzero, hone, hrest⟩ := nodup_pinsOf_cons.1 hnd
    have hz : pinOf pair k ≠ head.zero := ne_of_mem_of_not_mem hmem hzero
    have ho : pinOf pair k ≠ head.one := ne_of_mem_of_not_mem hmem hone
    rw [lineOfPinFrom, if_neg hz, if_neg ho, lineOfPinFrom_pinOf k hrest hj]
    congr 2; omega

/-- In a well-formed configuration `LineOfPin` is the inverse of the assignment of pins to lines (R6, R13). -/
theorem lineOfPin_eq_some {cfg : Config} (hwf : cfg.WellFormed) {p : PinId} {r : Nat} {k : LineSel} :
    lineOfPin cfg p = some (r, k) ↔ ∃ pair, cfg.lines[r]? = some pair ∧ p = pinOf pair k := by
  obtain ⟨-, -, -, -, hnd⟩ := hwf
  rw [pins_eq_pinsOf] at hnd
  constructor
  · intro h
    obtain ⟨j, pair, hr, hj, hp⟩ := pin_of_lineOfPinFrom h
    obtain rfl : r = j := by omega
    exact ⟨pair, hj, hp⟩
  · rintro ⟨pair, hr, rfl⟩
    simpa [lineOfPin] using lineOfPinFrom_pinOf k (n := 0) hnd hr

/-- Settles O46: each operation commutes with a change of pins, and the search for a pin is exact because
a well-formed configuration has distinct pins. -/
theorem pinsAreFixedAndNameTheirLines : Obligations.PinsAreFixedAndNameTheirLines :=
  ⟨fun _ _ _ lines h => ⟨exec_keeps_cfg h, exec_withLines lines h⟩,
    fun _ _ _ _ hwf => lineOfPin_eq_some hwf⟩

end Sys2Proof.Machine

/-! Host reads (20_memory.md R34, R100, R101): what a read of an existing reader answers, and that it hands
its value back and does nothing else. -/

namespace Sys2Proof.Machine

/-! ### What a read of an existing reader answers -/

section
variable {s : State} {r : ReaderIx} {q : Slot}

/-- A host read of a reader that exists only hands back the selected register (R30, R31). -/
theorem readStep_of_readerSlot (hq : readerSlot s.cfg r = some q) (sel : BitVec 1) (n : Nat) :
    readStep (selector r sel) n s =
      s.returns (trunc n (if sel = 0 then (s.reader q).code else (s.reader q).cnt)) := by
  obtain ⟨hnone, -⟩ | ⟨q', hq', he⟩ := readStep_cases r sel n s
  · simp [hq] at hnone
  · obtain rfl : q = q' := by simpa [hq] using hq'
    exact he

theorem exec_rdcode_of_readerSlot (hq : readerSlot s.cfg r = some q) :
    exec (.rdcode r) s = .next (s.returns (trunc s.cfg.codeW (s.reader q).code)) :=
  congrArg _ (readStep_of_readerSlot hq 0 s.cfg.codeW)

theorem exec_rdcnt_of_readerSlot (hq : readerSlot s.cfg r = some q) :
    exec (.rdcnt r) s = .next (s.returns (trunc s.cfg.countW (s.reader q).cnt)) :=
  congrArg _ (readStep_of_readerSlot hq 1 s.cfg.countW)

end

/-! ### A value handed back is not read again -/

@[simp] theorem returns_returns (s : State) (v w : Nat) : (s.returns v).returns w = s.returns w := rfl

@[simp] theorem sample_returns (s : State) (v : Nat) (q : Slot) (k : LineSel) (x : Level) :
    sample (s.returns v) q k x = sample s q k x := rfl

/-- Settles O40: a read changes `returned` alone, and neither the registers nor the sampler depend on it;
so the second read runs by the same equation as the first, from the state the first one answered. -/
theorem readsHaveNoSideEffect : Obligations.ReadsHaveNoSideEffect := by
  intro s r hr i hi
  obtain ⟨q, hq⟩ := Option.isSome_iff_exists.1 hr
  have again (v : Nat) : readerSlot (s.returns v).cfg r = some q := hq
  obtain rfl | rfl := hi
  · exact ⟨_, _, exec_rdcode_of_readerSlot hq, rfl, by simp [exec_rdcode_of_readerSlot (again _)], by simp⟩
  · exact ⟨_, _, exec_rdcnt_of_readerSlot hq, rfl, by simp [exec_rdcnt_of_readerSlot (again _)], by simp⟩

end Sys2Proof.Machine

/-! Valid edges (30_encoding.md R51, R73): the meaning of an edge operation on a LOW sample, and the bit it
leaves in bit 0 of `code`. -/

namespace Sys2Proof.Machine

/-- A LOW sample on a reader that exists and is not under initialization is a valid edge: its bit is
appended and counted (R71, R72). -/
theorem exec_edge_of_sample_low {s : State} {r : ReaderIx} {x : Level} {q : Slot} {k : LineSel}
    (hq : readerSlot s.cfg r = some q) (hi : s.initializing r = false) (hx : sample s q k x = .low) :
    exec (k.edge r x) s = .next (appendBit s q k.bitValue) := by
  simp [exec_edge, edgeStep, hq, hi, hx]

/-- The appended bit is bit 0 of the new code, in a code of at least one bit (R73). -/
theorem append_testBit_zero {cfg : Config} (hw : 0 < cfg.codeW) (c : Nat) (b : Bool) :
    (append cfg c b).testBit 0 = b := by
  unfold append trunc
  rw [Nat.testBit_mod_two_pow]
  cases b <;> simp [hw]

theorem bitValue_eq_decide (k : LineSel) : k.bitValue = decide (k = .one) := by cases k <;> rfl

/-- Settles O15: a valid edge appends the bit of its own line, and `CODE_W` is wide enough that the
truncation keeps bit 0. -/
theorem edgeBitIsFixedByTheLine : Obligations.EdgeBitIsFixedByTheLine := by
  intro s r x q k hwf hq hidle hx
  obtain ⟨-, hcodeW, -⟩ := hwf
  have hw : 0 < s.cfg.codeW := by omega
  refine ⟨_, exec_edge_of_sample_low hq (initializing_eq_false.2 hidle) hx, ?_⟩
  simp only [appendBit_reader, if_pos]
  rw [append_testBit_zero hw, bitValue_eq_decide]

end Sys2Proof.Machine

/-! The state machine of a reader (40_edge_handlers.md R76): what any operation can do to the registers of
one reader, and the transitions that follow from it. -/

namespace Sys2Proof.Machine

/-! ### IDLE and ACCUMULATING as values of the count -/

theorem fsm_accumulating_iff (rd : Reader) : rd.fsm = .accumulating ↔ rd.cnt ≠ 0 := by
  rw [ne_eq, ← fsm_idle_iff]; cases rd.fsm <;> simp

/-- The first pulse makes the count 1, in a counter of at least one bit (R74). -/
theorem inc_zero {cfg : Config} (h : 0 < cfg.countW) : inc cfg 0 = 1 :=
  le_antisymm (inc_le_succ cfg 0) (inc_pos h 0)

/-! ### What an operation does to the registers of one reader -/

/-- A HIGH sample on a reader that exists and is not under initialization is a spurious edge, without
effect (R111). -/
theorem exec_edge_of_sample_high {s : State} {r : ReaderIx} {x : Level} {q : Slot} {k : LineSel}
    (hq : readerSlot s.cfg r = some q) (hi : s.initializing r = false) (hx : sample s q k x = .high) :
    exec (k.edge r x) s = .next s := by
  simp [exec_edge, edgeStep, hq, hi, hx]

@[simp] theorem edgeOf_edge (k : LineSel) (r r' : ReaderIx) (x : Level) :
    edgeOf r (k.edge r' x) = (r' == r) := by cases k <;> rfl

theorem ofPhase_eq_clear {p : Phase} (h : MicroOp.ofPhase p = .clear) : p = 7 := by
  rw [← MicroOp.phase_ofPhase p, h]; rfl

/-- Two indices that name the same reader are the same index (R52). -/
theorem readerSlot_injective {cfg : Config} {r r' : ReaderIx} {q : Slot}
    (h : readerSlot cfg r = some q) (h' : readerSlot cfg r' = some q) : r = r' :=
  (readerSlot_eq_some.1 h).1.trans (readerSlot_eq_some.1 h').1.symm

/-- No micro-operation but `CLEAR` writes a data register (R82 to R88). -/
theorem microAct_registers {m : MicroOp} (hm : m ≠ .clear) (q q' : Slot) (s : State) :
    ((microAct m q s).reader q').code = (s.reader q').code ∧
      ((microAct m q s).reader q').cnt = (s.reader q').cnt := by
  by_cases hq : q' = q
  · subst hq
    cases m with
    | clear => exact absurd rfl hm
    | zHigh | zLow | zRel | oHigh | oLow | oRel | settle => simp [microAct, actOnLine_eq]
  · simp [microAct_reader_other m s hq]

/-- The instruction `i`, run in `s`, performs the `CLEAR` of reader `r` (R81, R89). -/
def Clears (s : State) (r : ReaderIx) (i : Instr) : Prop :=
  s.seqR = r ∧ (i = .clear ∨ (i = .seq ∧ s.busy = true ∧ s.seqPhase = 7))

/-- Everything an instruction `i` that leads from `s` to `t` can do to the data registers of the reader
`r`, held in slot `q`. -/
inductive RegisterEffect (s t : State) (r : ReaderIx) (q : Slot) (i : Instr) : Prop
  | kept (hcode : (t.reader q).code = (s.reader q).code) (hcnt : (t.reader q).cnt = (s.reader q).cnt)
  | appended (b : Bool) (hi : edgeOf r i = true)
      (hcode : (t.reader q).code = append s.cfg (s.reader q).code b)
      (hcnt : (t.reader q).cnt = inc s.cfg (s.reader q).cnt)
  | cleared (hi : Clears s r i) (hcode : (t.reader q).code = 0) (hcnt : (t.reader q).cnt = 0)

section
variable {s t : State} {r : ReaderIx} {q : Slot} {i : Instr}

/-- A step of the sequencer writes the data registers by `CLEAR` alone, and then those of `seq_r` alone. -/
theorem microStep_registerEffect {m : MicroOp} (hq : readerSlot s.cfg r = some q)
    (hclear : m = .clear → s.seqR = r → Clears s r i) (h : microStep (microAct m) s = .next t) :
    RegisterEffect s t r q i := by
  obtain ⟨q', hq', rfl⟩ := microStep_eq_next.1 h
  by_cases hm : m = .clear
  · subst hm
    by_cases hqq : q = q'
    · subst hqq
      exact .cleared (hclear rfl (readerSlot_injective hq' hq))
        (by simp [microAct, clearReader_reader]) (by simp [microAct, clearReader_reader])
    · exact .kept (by simp [microAct_reader_other _ s hqq]) (by simp [microAct_reader_other _ s hqq])
  · obtain ⟨hcode, hcnt⟩ := microAct_registers hm q' q s
    exact .kept (by simpa using hcode) (by simpa using hcnt)

/-- The data registers of a reader are written by its own edges and by its own `CLEAR`, by nothing else
(R23, R76). -/
theorem exec_registerEffect (hq : readerSlot s.cfg r = some q) (h : exec i s = .next t) :
    RegisterEffect s t r q i := by
  obtain ⟨w, hw⟩ | ⟨m, rfl⟩ := stimulus_or_microOp i
  · have effect := exec_effect hw s
    rw [h] at effect
    cases effect with
    | @valid r' q' k x hq' =>
      by_cases hqq : q = q'
      · subst hqq
        exact .appended k.bitValue (by simp [readerSlot_injective hq' hq])
          (by simp [appendBit_reader]) (by simp [appendBit_reader])
      · exact .kept (by simp [appendBit_reader, hqq]) (by simp [appendBit_reader, hqq])
    | micro hb hq' =>
      exact microStep_registerEffect hq (fun hm hr => ⟨hr, .inr ⟨rfl, hb, ofPhase_eq_clear hm⟩⟩)
        (microStep_some hq')
    | spurious => exact .kept rfl rfl
    | badReader | initRace | readCode | readCount | busy | start | notBusy =>
      exact .kept (by simp) (by simp)
  · rw [exec_microOp] at h
    exact microStep_registerEffect hq (fun hm hr => ⟨hr, .inl (by rw [hm]; rfl)⟩) h

/-- An instruction that is neither an edge of the reader nor its `CLEAR` leaves its registers alone. -/
theorem exec_keeps_registers (hq : readerSlot s.cfg r = some q) (h : exec i s = .next t)
    (hedge : edgeOf r i = false) (hclear : ¬ Clears s r i) :
    (t.reader q).code = (s.reader q).code ∧ (t.reader q).cnt = (s.reader q).cnt := by
  cases exec_registerEffect hq h with
  | kept hcode hcnt => exact ⟨hcode, hcnt⟩
  | appended b hi => simp [hedge] at hi
  | cleared hi => exact absurd hi hclear

/-- A reader that counted and then does not was cleared: an edge never brings the count to 0. -/
theorem clears_of_accumulating_to_idle (hw : 0 < s.cfg.countW) (hq : readerSlot s.cfg r = some q)
    (h : exec i s = .next t) (hs : (s.reader q).fsm = .accumulating) (ht : (t.reader q).fsm = .idle) :
    Clears s r i := by
  rw [fsm_accumulating_iff] at hs
  rw [fsm_idle_iff] at ht
  cases exec_registerEffect hq h with
  | kept hcode hcnt => exact absurd (hcnt.symm.trans ht) hs
  | appended b hi hcode hcnt => exact absurd (hcnt.symm.trans ht) (inc_pos hw _).ne'
  | cleared hi => exact hi

end

/-- At phase 7 `SEQ` is the micro-operation `CLEAR` (R81). -/
theorem exec_seq_eq_exec_clear {s : State} (hb : s.busy = true) (hp : s.seqPhase = 7) :
    exec .seq s = exec .clear s := by
  have hseq : exec .seq s = microStep (microAct (MicroOp.ofPhase s.seqPhase)) s := execSeq_busy hb
  rw [hseq, hp]
  exact (exec_microOp .clear s).symm

/-- Settles O21: the rows of a valid and of a spurious edge and of `CLEAR` are read off those operations;
the frame and the converse follow from `exec_registerEffect`, which says all that an instruction can do to
the registers of a reader. -/
theorem readerStateTransitions : Obligations.ReaderStateTransitions := by
  intro s r q hwf hq
  obtain ⟨-, -, hcountW, -⟩ := hwf
  have hw : 0 < s.cfg.countW := by omega
  refine ⟨?valid, ?spurious, ?clear, ?others, fun i t => clears_of_accumulating_to_idle hw hq⟩
  case valid =>
    intro k x hidle hx
    refine ⟨_, exec_edge_of_sample_low hq (initializing_eq_false.2 hidle) hx, ?_⟩
    rw [appendBit_reader, if_pos rfl, fsm_accumulating_iff, fsm_idle_iff]
    exact ⟨(inc_pos hw _).ne', rfl, fun h0 => h0 ▸ inc_zero hw, fun _ => rfl⟩
  case spurious =>
    exact fun k x hidle hx => exec_edge_of_sample_high hq (initializing_eq_false.2 hidle) hx
  case clear =>
    intro hb hr hp
    subst hr
    have hclear := exec_microOp_some .clear hq
    refine ⟨_, (exec_seq_eq_exec_clear hb hp).trans hclear, hclear, ?_⟩
    simp [fsm_idle_iff, microAct, clearReader_reader]
  case others =>
    intro i t h hedge hnot
    obtain ⟨hcode, hcnt⟩ := exec_keeps_registers hq h hedge
      fun ⟨hr, hi⟩ => hnot ⟨hr, hi.imp_right fun ⟨hseq, _, hp⟩ => ⟨hseq, hp⟩⟩
    exact ⟨hcode, hcnt, by simp only [Reader.fsm, hcnt]⟩

end Sys2Proof.Machine

/-! Spurious edges (60_exceptions.md R111): a HIGH sample is no exception and has no effect. -/

namespace Sys2Proof.Machine

/-- A line that the WLD does not drive is sampled at its outside level (R70). -/
theorem sample_eq_of_input {s : State} {q : Slot} {k : LineSel} (h : ((s.reader q).line k).dir = .input)
    (x : Level) : sample s q k x = x :=
  sample_input h x

/-- Settles O16: a HIGH sample makes the edge operation answer the state it was given, and an input line
is sampled at its outside level. -/
theorem spuriousEdgeChangesNothing : Obligations.SpuriousEdgeChangesNothing := by
  intro s r x q k hq hidle
  refine ⟨?unchanged, ?sampled⟩
  case unchanged =>
    exact fun hx => exec_edge_of_sample_high hq (initializing_eq_false.2 hidle) hx
  case sampled =>
    intro hdir
    rw [sample_eq_of_input hdir]

end Sys2Proof.Machine

/-! Encodings (30_encoding.md): decoder and encoder are inverse to each other on what each accepts, the
opcode map, the operands of a word, and the assembler text. -/

namespace Sys2Proof.Machine

/-! ### Decoder and encoder -/

/-- A micro-operation's code is its phase (R60). -/
theorem encode_microOp (m : MicroOp) : encode m.instr = .phase m.phase := by cases m <;> rfl

/-- Settles O2: the decoder selects by the opcode field, which the encoder puts there, and takes the
operands from the fields the encoder put them in. -/
theorem decodeOfEncodeIsTheInstruction : Obligations.DecodeOfEncodeIsTheInstruction := by
  intro i
  cases i with
  | init r | edge0 r x | edge1 r x | rdcode r | rdcnt r | seq => simp [encode, decode, decodeStimulus]
  | zHigh | zLow | zRel | oHigh | oLow | oRel | settle | clear => rfl

/-- Settles O3: an accepted word is one of the six forms of R58, and each is the word of the instruction
that it decodes to; a phase is the number of the micro-operation that it names. -/
theorem encodeOfDecodeIsTheCode : Obligations.EncodeOfDecodeIsTheCode := by
  intro c i h
  cases c with
  | stimulus w =>
    obtain ⟨r, rfl, rfl⟩ | ⟨r, x, rfl, rfl⟩ | ⟨r, x, rfl, rfl⟩ | ⟨r, rfl, rfl⟩ | ⟨r, rfl, rfl⟩ | ⟨rfl, rfl⟩ :=
      decodeStimulus_ok h
    all_goals rfl
  | phase p =>
    cases h
    rw [encode_microOp, MicroOp.phase_ofPhase]

/-- Settles O1: each code is evaluated. -/
theorem wordsDecodeAsTheSpecWritesThem : Obligations.WordsDecodeAsTheSpecWritesThem := by
  unfold Obligations.WordsDecodeAsTheSpecWritesThem
  decide

/-- Settles O4: evaluated on each of the 256 words. -/
theorem opcodeRowsSelectExactlyTheAcceptedWords : Obligations.OpcodeRowsSelectExactlyTheAcceptedWords := by
  unfold Obligations.OpcodeRowsSelectExactlyTheAcceptedWords
  decide

/-! ### Counting the accepted words -/

/-- Which instructions are well formed depends on the number of readers alone (R61 case 4). -/
theorem wellFormed_congr {cfg cfg' : Config} (h : cfg.nReaders = cfg'.nReaders) (i : Instr) :
    i.wellFormed cfg = i.wellFormed cfg' := by
  simp only [Instr.wellFormed, Config.hasReader, h]

/-- Settles O5: the count depends on `N_READERS` alone, and is evaluated for 3, 2 and 1 readers. -/
theorem acceptedWordCounts : Obligations.AcceptedWordCounts := by
  intro cfg
  have congr (n : Nat) (h : cfg.nReaders = n) :
      Instr.wellFormed cfg = Instr.wellFormed { Config.default with nReaders := n } :=
    funext fun i => wellFormed_congr h i
  refine ⟨fun h => ?_, fun h => ?_, fun h => ?_⟩ <;> simp only [congr _ h] <;> decide

/-! ### The operands of a word -/

/-- The word that decodes to an instruction is that instruction's word (R58). -/
theorem eq_word_of_decodeStimulus {w : StimulusWord} {i : Instr} (h : decodeStimulus w = .ok i) :
    w = i.word := by
  have henc : encode i = .stimulus w := encodeOfDecodeIsTheCode (.stimulus w) i h
  simp [Instr.word, henc]

/-- Settles O6: the word is the one the edge operation is encoded as, and its fields are read off; the two
edge opcodes 2 and 3 differ in bit 4 of the word. -/
theorem edgeWordOperandsAndBitFour : Obligations.EdgeWordOperandsAndBitFour := by
  intro w r x k h
  obtain rfl := eq_word_of_decodeStimulus h
  clear h
  cases k <;> cases x <;> revert r <;> decide

/-! ### Text and words of instructions -/

/-- A reader has a digit unless it is reader 3 (R63). -/
theorem readerDigit_isSome {r : ReaderIx} (h : r ≠ 3) : (readerDigit r).isSome = true := by
  revert r; decide

/-- The text of an instruction assembles to that instruction alone (R63). -/
theorem assembleLine_textOf (i : Instr) : ∀ text ∈ textOf i, assembleLine text = some [i] := by
  cases i with
  | init r | rdcode r | rdcnt r => revert r; decide
  | edge0 r x | edge1 r x => cases x <;> revert r <;> decide
  | seq | zHigh | zLow | zRel | oHigh | oLow | oRel | settle | clear => decide

/-- Settles O7: the text of each instruction, for each reader that has a digit and each level, is
assembled; and only reader 3 has no digit. -/
theorem assemblerReadsTheSyntaxTable : Obligations.AssemblerReadsTheSyntaxTable := by
  refine ⟨fun i text h => assembleLine_textOf i text h, fun i w hw hr => ?_⟩
  cases i with
  | init r | rdcode r | rdcnt r | edge0 r x | edge1 r x =>
    have hdigit : (readerDigit r).isSome = true := readerDigit_isSome fun h3 => hr (congrArg some h3)
    simpa [textOf] using hdigit
  | seq => rfl
  | zHigh | zLow | zRel | oHigh | oLow | oRel | settle | clear => cases hw

/-- The word of each stimulus instruction as a sum of its opcode and its reader (R58). -/
theorem word_eq_add (r : ReaderIx) :
    (Instr.init r).word = 0x10 + r.setWidth 8 ∧ (Instr.edge0 r .low).word = 0x20 + r.setWidth 8 ∧
    (Instr.edge0 r .high).word = 0x24 + r.setWidth 8 ∧ (Instr.edge1 r .low).word = 0x30 + r.setWidth 8 ∧
    (Instr.edge1 r .high).word = 0x34 + r.setWidth 8 ∧ (Instr.rdcode r).word = 0x40 + r.setWidth 8 ∧
    (Instr.rdcnt r).word = 0x50 + r.setWidth 8 := by
  revert r; decide

theorem word_seq : Instr.seq.word = 0x60 := rfl

/-- A valid pulse is the edge word of its line at LOW (R64). -/
theorem word_pulse (r : ReaderIx) (b : Bool) :
    (pulse r b).word = if b then 0x30 + r.setWidth 8 else 0x20 + r.setWidth 8 := by
  revert r; cases b <;> decide

/-- Settles O8: the expansions of R64, each instruction replaced by its word. -/
theorem pseudoInstructionsExpand : Obligations.PseudoInstructionsExpand := by
  intro r bits
  obtain ⟨hinit, hzl, hzh, hol, hoh, hcode, hcnt⟩ := word_eq_add r
  simp [Pseudo.words, Pseudo.expand, hinit, hzl, hzh, hol, hoh, hcode, hcnt, word_pulse, word_seq]

end Sys2Proof.Machine

/-! The step (20_memory.md R38, 30_encoding.md R61): which of its cases applies, and what it answers
there. -/

namespace Sys2Proof.Machine

/-! ### A step, case by case -/

section
variable {s : State} {w : StimulusWord} {rest : List StimulusWord} {i : Instr}

/-- A step on an accepted word is the meaning of its instruction, after the word is taken. -/
theorem step_decoded (hc : s.cfg.WellFormed) (hs : s.stimuli = w :: rest) (hd : decodeStimulus w = .ok i) :
    step s = exec i (s.taking rest) := by
  unfold step; rw [if_pos hc, fetch_cons hs]; simp only [hd]

theorem step_no_stimulus (hc : s.cfg.WellFormed) (hs : s.stimuli = []) : step s = .next s := by
  unfold step; rw [if_pos hc, fetch_nil hs]

theorem step_illFormed (hc : ¬ s.cfg.WellFormed) : step s = .refused .illFormedConfig := if_neg hc

/-- In a well-formed configuration no step is refused: every accepted word has a meaning. -/
theorem step_ne_refused (hc : s.cfg.WellFormed) (c : Refusal) : step s ≠ .refused c := by
  cases hs : s.stimuli with
  | nil => simp [step_no_stimulus hc hs]
  | cons w rest =>
    cases hd : decodeStimulus w with
    | error e => simp [step_reserved hc hs hd]
    | ok i =>
      rw [step_decoded hc hs hd]
      have effect := exec_effect hd (s.taking rest)
      intro h
      rw [h] at effect
      cases effect

end

/-- Settles O9: the state with the word taken is the one the statement writes out. -/
theorem stepRunsTheDecodedInstruction : Obligations.StepRunsTheDecodedInstruction :=
  fun _ _ _ _ hc hs hd => step_decoded hc hs hd

/-- Settles O10: there is nothing to fetch. -/
theorem stepWithoutStimulusChangesNothing : Obligations.StepWithoutStimulusChangesNothing :=
  fun _ hc hs => step_no_stimulus hc hs

/-- Each pair gives two pins. -/
theorem length_pinsOf (lines : List PinPair) : (pinsOf lines).length = 2 * lines.length := by
  induction lines with
  | nil => rfl
  | cons pair rest ih => simp [ih]; omega

/-- Settles O11: counting the pins counts the pairs, and in a well-formed configuration every stop is a
fault. -/
theorem illFormedConfigurationIsRefused : Obligations.IllFormedConfigurationIsRefused := by
  refine fun s => ⟨?_, step_illFormed, fun h hc => step_ne_refused hc _ h⟩
  have hlength := length_pinsOf s.cfg.lines
  unfold pinsOf at hlength
  unfold Config.WellFormed Config.pins List.Nodup
  rw [hlength, and_assoc, Nat.mul_right_inj two_ne_zero]

/-! ### Refused words -/

/-- A word with a field that cases 1 to 3 of R61 reserve has no meaning. -/
theorem decodeStimulus_reserved {w : StimulusWord}
    (h : opOf w = 0 ∨ 7 ≤ opOf w ∨ zOf w = 1 ∨ (opOf w = 6 ∧ (xOf w = 1 ∨ rOf w ≠ 0)) ∨
      ((opOf w = 1 ∨ opOf w = 4 ∨ opOf w = 5) ∧ xOf w = 1)) :
    ∃ e, decodeStimulus w = .error e := by
  cases hd : decodeStimulus w with
  | error e => exact ⟨e, rfl⟩
  | ok i =>
    obtain ⟨r, -, rfl⟩ | ⟨r, x, -, rfl⟩ | ⟨r, x, -, rfl⟩ | ⟨r, -, rfl⟩ | ⟨r, -, rfl⟩ | ⟨-, rfl⟩ :=
      decodeStimulus_ok hd
    all_goals simp at h

/-- Taking a word and refusing it changes no hardware state (R61, R114). -/
theorem sameHardware_taking_raise (s : State) (rest : List StimulusWord) (o : StepOutcome) :
    s.SameHardware ((s.taking rest).raise o) := by
  simp [State.SameHardware]

/-- Settles O12: such a word decodes to no instruction, so the step refuses it. -/
theorem reservedWordIsRefusedWithoutEffect : Obligations.ReservedWordIsRefusedWithoutEffect := by
  intro s w rest hc hs hw
  obtain ⟨e, hd⟩ := decodeStimulus_reserved hw
  exact ⟨_, step_reserved hc hs hd, sameHardware_taking_raise s rest _, by simp⟩

/-- An instruction that names a reader that does not exist is refused (R61 case 4). -/
theorem exec_badReader {s : State} {i : Instr} {r : ReaderIx} (hi : i.reader? = some r)
    (hq : readerSlot s.cfg r = none) : exec i s = .next (s.raise (.refuse .badReader)) := by
  cases i with
  | init _ => cases hi; simp [exec, execInit, hq]
  | edge0 _ x => cases hi; simp [exec, execEdge0, edgeStep, hq]
  | edge1 _ x => cases hi; simp [exec, execEdge1, edgeStep, hq]
  | rdcode _ => cases hi; simp [exec, execRdcode, readStep, memRead, hq]
  | rdcnt _ => cases hi; simp [exec, execRdcnt, readStep, memRead, hq]
  | seq | zHigh | zLow | zRel | oHigh | oLow | oRel | settle | clear => cases hi

/-- Settles O13: an index at or above `N_READERS`, and 3, names no reader slot. -/
theorem absentReaderIsRefusedWithoutEffect : Obligations.AbsentReaderIsRefusedWithoutEffect := by
  intro s i r hi hr
  refine exec_badReader hi (readerSlot_eq_none.2 ?_)
  obtain h | rfl := hr
  · simp [Config.hasReader, h]
  · simp [Config.hasReader]

/-! ### Valid and faulted edges -/

/-- Settles O14: the two edge operations on a LOW sample. -/
theorem validEdgeAppendsAndCounts : Obligations.ValidEdgeAppendsAndCounts := by
  intro s r x q hq hidle
  have hi := initializing_eq_false.2 hidle
  exact ⟨exec_edge_of_sample_low (k := .zero) hq hi, exec_edge_of_sample_low (k := .one) hq hi⟩

/-- An edge of the reader under initialization is the fault `InitRace` (R78). -/
theorem exec_edge_of_initializing {s : State} {r : ReaderIx} {q : Slot} (k : LineSel) (x : Level)
    (hq : readerSlot s.cfg r = some q) (hi : s.initializing r = true) :
    exec (k.edge r x) s = .next (s.raise (.fault .initRace)) := by
  simp [exec_edge, edgeStep, hq, hi]

/-- Settles O17: the race is tested before the line is sampled. -/
theorem edgeOfReaderUnderInitializationIsAFault : Obligations.EdgeOfReaderUnderInitializationIsAFault := by
  intro s r x k hr hb hs
  obtain ⟨q, hq⟩ := Option.isSome_iff_exists.1 hr
  exact exec_edge_of_initializing k x hq (initializing_eq_true.2 ⟨hb, hs⟩)

/-- The sampler by the direction of the line (R70). -/
theorem line_sample_eq (l : Line) (x : Level) : l.sample x = if l.dir = .output then l.out else x := by
  cases h : l.dir <;> simp [h]

/-- Settles O18: the sampler on each of the two lines. -/
theorem samplerReadsDrivenElseOutsideLevel : Obligations.SamplerReadsDrivenElseOutsideLevel :=
  fun s q x => ⟨line_sample_eq (s.reader q).zeroLine x, line_sample_eq (s.reader q).oneLine x⟩

/-! ### The arithmetic of the data registers -/

/-- Doubling leaves bit 0 free for the new bit. -/
theorem shiftLeft_one_or_toNat (c : Nat) (b : Bool) : (c <<< 1) ||| b.toNat = 2 * c + b.toNat := by
  rw [← Nat.shiftLeft_add_eq_or_of_lt (i := 1) b.toNat_lt, Nat.shiftLeft_eq, pow_one, mul_comm]

theorem testBit_two_mul_add_toNat (c : Nat) (b : Bool) (j : Nat) :
    (2 * c + b.toNat).testBit j = if j = 0 then b else c.testBit (j - 1) := by
  cases j with
  | zero => cases b <;> simp
  | succ j =>
    have half : (2 * c + b.toNat) / 2 = c := by have := b.toNat_lt; omega
    rw [Nat.testBit_succ, if_neg j.succ_ne_zero, half, Nat.add_sub_cancel]

/-- Settles O19: the shift leaves bit 0 to the new bit, and truncation keeps the low `CODE_W` bits. -/
theorem appendIsAShiftThatDropsTheTopBit : Obligations.AppendIsAShiftThatDropsTheTopBit := by
  refine fun cfg c b => ⟨by rw [shiftLeft_one_or_toNat]; rfl, fun j => ?_⟩
  rw [append, trunc, Nat.testBit_mod_two_pow, testBit_two_mul_add_toNat]

/-- Settles O20: `Inc` is the minimum of the successor and the greatest value. -/
theorem incrementSaturates : Obligations.IncrementSaturates := by
  refine fun cfg n => ⟨fun h => ?_, fun h => ?_, fun h => ⟨le_inc h, inc_lt cfg n⟩⟩ <;> unfold inc <;> omega

/-! ### Reads and outcomes -/

/-- Settles O39: a register that fits its width is returned whole. -/
theorem readsReturnTheWholeRegister : Obligations.ReadsReturnTheWholeRegister := by
  intro s r q hrange hq
  obtain ⟨hcode, hcnt⟩ := hrange q
  rw [exec_rdcode_of_readerSlot hq, exec_rdcnt_of_readerSlot hq, trunc_of_lt hcode, trunc_of_lt hcnt]
  exact ⟨rfl, rfl⟩

/-- The register that a selector names, reader and register bit apart (R30). -/
theorem memRead_eq (s : State) (addr : Selector) (n : Nat) {r : ReaderIx} {sel : BitVec 1}
    (h : addr = selector r sel) :
    memRead s addr n = (readerSlot s.cfg r).map fun q =>
      (if sel = 0 then (s.reader q).code else (s.reader q).cnt) % 2 ^ n := by
  subst h; simp [memRead, trunc]

/-- Settles O41: each selector is split into its reader and its register bit. -/
theorem selectorsNameTheRegistersOfTheMap : Obligations.SelectorsNameTheRegistersOfTheMap := by
  intro s n
  rw [memRead_eq s 0 n (r := 0) (sel := 0) rfl, memRead_eq s 1 n (r := 0) (sel := 1) rfl,
    memRead_eq s 2 n (r := 1) (sel := 0) rfl, memRead_eq s 3 n (r := 1) (sel := 1) rfl,
    memRead_eq s 4 n (r := 2) (sel := 0) rfl, memRead_eq s 5 n (r := 2) (sel := 1) rfl,
    memRead_eq s 6 n (r := 3) (sel := 0) rfl, memRead_eq s 7 n (r := 3) (sel := 1) rfl]
  refine ⟨?_, ?_, ?_, ?_, ?_, ?_, rfl, rfl⟩
  all_goals unfold readerSlot; simp

/-- Settles O45: each code is evaluated. -/
theorem outcomeCodes : Obligations.OutcomeCodes := ⟨rfl, rfl, rfl, rfl, rfl, rfl⟩

end Sys2Proof.Machine

/-! The sequencer (41_init_sequencer.md R80 to R89): `INIT`, `SEQ` and each micro-operation. -/

namespace Sys2Proof.Machine

/-! ### `INIT` and `SEQ` -/

theorem exec_init_busy {s : State} {r : ReaderIx} (hr : (readerSlot s.cfg r).isSome = true)
    (hb : s.busy = true) : exec (.init r) s = .next (s.raise (.refuse .busy)) := by
  obtain ⟨q, hq⟩ := Option.isSome_iff_exists.1 hr
  simp [exec, execInit, hq, hb]

theorem exec_init_idle {s : State} {r : ReaderIx} (hr : (readerSlot s.cfg r).isSome = true)
    (hb : s.busy = false) : exec (.init r) s = .next (s.startInit r) := by
  obtain ⟨q, hq⟩ := Option.isSome_iff_exists.1 hr
  simp [exec, execInit, hq, hb]

theorem exec_seq_idle {s : State} (hb : s.busy = false) :
    exec .seq s = .next (s.raise (.refuse .notBusy)) := execSeq_idle hb

theorem exec_seq_busy {s : State} (hb : s.busy = true) :
    exec .seq s = exec (MicroOp.ofPhase s.seqPhase).instr s :=
  (execSeq_busy hb).trans (exec_microOp _ s).symm

/-- Settles O24: neither refusal of `INIT` applies. -/
theorem initStartsTheSequencer : Obligations.InitStartsTheSequencer :=
  fun _ _ hr hb => exec_init_idle hr hb

/-- Settles O25: `busy` decides both. -/
theorem initWhileBusyAndSeqWhileIdleAreRefused : Obligations.InitWhileBusyAndSeqWhileIdleAreRefused :=
  ⟨fun _ _ hr hb => exec_init_busy hr hb, fun _ hb => exec_seq_idle hb⟩

/-! ### The advance -/

/-- Before phase 7 the advance counts the phase up, without wrapping (R81). -/
theorem toNat_phase_succ {p : Phase} (h : p ≠ 7) : (p + 1).toNat = p.toNat + 1 := by
  revert p; decide

/-- Every micro-operation but `CLEAR` leaves `busy` to the advance (R81). -/
theorem microAct_busy {m : MicroOp} (hm : m ≠ .clear) (q : Slot) (s : State) :
    (microAct m q s).busy = s.busy := by
  cases m with
  | clear => exact absurd rfl hm
  | zHigh | zLow | zRel | oHigh | oLow | oRel | settle => rfl

theorem ofPhase_ne_clear {p : Phase} (h : p ≠ 7) : MicroOp.ofPhase p ≠ .clear :=
  fun hm => h (ofPhase_eq_clear hm)

/-- The last step of the sequencer ends `busy` (R81, R89). -/
theorem busy_of_last_step {m : MicroOp} {q : Slot} {s : State} (hp : s.seqPhase = 7) :
    (microAct m q s).advance.busy = false ∧ (microAct m q s).advance.seqPhase = 7 := by
  have hp' : (microAct m q s).seqPhase = 7 := by simpa using hp
  rw [advance_last hp']
  exact ⟨rfl, hp'⟩

/-- Each earlier step leaves `busy` and counts the phase up (R81). -/
theorem busy_of_earlier_step {q : Slot} {s : State} (hp : s.seqPhase ≠ 7) :
    (microAct (MicroOp.ofPhase s.seqPhase) q s).advance.busy = s.busy ∧
    (microAct (MicroOp.ofPhase s.seqPhase) q s).advance.seqPhase = s.seqPhase + 1 := by
  rw [advance_earlier (by simpa using hp)]
  exact ⟨microAct_busy (ofPhase_ne_clear hp) q s, by simp⟩

/-- Settles O26: `SEQ` and the micro-operation of the phase are the same sequencer step, which is the
action and then the advance. -/
theorem seqPerformsTheMicroOperationOfItsPhase : Obligations.SeqPerformsTheMicroOperationOfItsPhase := by
  intro s hb hr
  obtain ⟨q, hq⟩ := Option.isSome_iff_exists.1 hr
  have hexec := exec_microOp_some (MicroOp.ofPhase s.seqPhase) hq
  refine ⟨MicroOp.ofPhase s.seqPhase, _, by simp, (exec_seq_busy hb).trans hexec, hexec, by simp, ?_⟩
  split
  next hp => exact busy_of_last_step hp
  next hp =>
    obtain ⟨hbusy, hphase⟩ := busy_of_earlier_step (q := q) hp
    exact ⟨hbusy.trans hb, by rw [hphase, toNat_phase_succ hp]⟩

/-! ### The micro-operations -/

/-- A sequencer step before phase 7 is the action and the next phase (R81). -/
theorem exec_microOp_earlier (m : MicroOp) {s : State} {q : Slot} (hq : readerSlot s.cfg s.seqR = some q)
    {p : Phase} (hp : s.seqPhase = p) (h7 : p ≠ 7) :
    exec m.instr s = .next { microAct m q s with seqPhase := p + 1 } := by
  subst hp
  rw [exec_microOp_some m hq, advance_earlier (by simpa using h7), microAct_seqPhase]

/-- Settles O27: the sequencer steps at phases 0 and 3. -/
theorem driveHighMicroOperations : Obligations.DriveHighMicroOperations :=
  fun _ _ hq => ⟨fun hp => exec_microOp_earlier .zHigh hq hp (by decide),
    fun hp => exec_microOp_earlier .oHigh hq hp (by decide)⟩

/-- Settles O29: the sequencer steps at phases 2 and 5. -/
theorem releaseMicroOperations : Obligations.ReleaseMicroOperations :=
  fun _ _ hq => ⟨fun hp => exec_microOp_earlier .zRel hq hp (by decide),
    fun hp => exec_microOp_earlier .oRel hq hp (by decide)⟩

/-- Settles O30: the sequencer step at phase 6 acts on no reader. -/
theorem settleRequestsTheDelay : Obligations.SettleRequestsTheDelay := by
  intro s hr hp
  obtain ⟨q, hq⟩ := Option.isSome_iff_exists.1 hr
  exact exec_microOp_earlier .settle hq hp (by decide)

/-- Settles O31: `CLEAR` ends `busy` itself, and the advance at phase 7 does it again. -/
theorem clearZeroesTheReader : Obligations.ClearZeroesTheReader := by
  intro s q hq hp
  have hexec : exec .clear s = _ := exec_microOp_some .clear hq
  rw [hexec, advance_last (by simpa using hp)]
  rfl

/-- The action of a micro-operation, as a change of its reader alone (R82 to R89). -/
def Reader.act (m : MicroOp) (rd : Reader) : Reader :=
  match m with
  | .zHigh => { rd with zeroLine := rd.zeroLine.driveHigh }
  | .zLow => { rd with zeroLine := rd.zeroLine.driveLow }
  | .zRel => { rd with zeroLine := rd.zeroLine.release }
  | .oHigh => { rd with oneLine := rd.oneLine.driveHigh }
  | .oLow => { rd with oneLine := rd.oneLine.driveLow }
  | .oRel => { rd with oneLine := rd.oneLine.release }
  | .settle => rd
  | .clear => { rd with code := 0, cnt := 0 }

@[simp] theorem microAct_reader_same (m : MicroOp) (q : Slot) (s : State) :
    (microAct m q s).reader q = (s.reader q).act m := by
  cases m <;> simp [microAct, actOnLine_eq, clearReader_reader, Reader.act]

/-- A driven line that goes LOW is sampled HIGH before and LOW after, whatever stands outside (R70, R83). -/
theorem sample_of_driveLow {s t : State} {q : Slot} {k : LineSel}
    (hs : (s.reader q).line k = ⟨.output, .high, false⟩)
    (ht : (t.reader q).line k = ((s.reader q).line k).driveLow) :
    (t.reader q).line k = ⟨.output, .low, false⟩ ∧ ∀ x, sample s q k x = .high ∧ sample t q k x = .low := by
  rw [hs] at ht
  exact ⟨ht, fun x => ⟨by simp [sample, hs], by simp [sample, ht, Line.driveLow]⟩⟩

/-- Settles O28: the sequencer steps at phases 1 and 4, and what the sampler sees of them. -/
theorem driveLowMicroOperations : Obligations.DriveLowMicroOperations := by
  intro s q hq
  have hz (hp : s.seqPhase = 1) := exec_microOp_earlier .zLow hq hp (by decide)
  have ho (hp : s.seqPhase = 4) := exec_microOp_earlier .oLow hq hp (by decide)
  refine ⟨hz, ho, ?_⟩
  rintro k t (⟨hp, rfl, hexec⟩ | ⟨hp, rfl, hexec⟩) hs
  · obtain rfl := Host.Outcome.next.inj ((hz hp).symm.trans hexec)
    exact sample_of_driveLow hs (congrArg Reader.zeroLine (microAct_reader_same .zLow q s))
  · obtain rfl := Host.Outcome.next.inj ((ho hp).symm.trans hexec)
    exact sample_of_driveLow hs (congrArg Reader.oneLine (microAct_reader_same .oLow q s))

/-- Settles O32: a sequencer step looks for its reader first. -/
theorem microOperationOnAbsentReaderStops : Obligations.MicroOperationOnAbsentReaderStops := by
  intro s hq
  have stops (m : MicroOp) : exec m.instr s = .fault .seqReaderAbsent :=
    (exec_microOp m s).trans (microStep_none hq)
  exact ⟨stops, fun hb => (exec_seq_busy hb).trans (stops _)⟩

end Sys2Proof.Machine

/-! The invariant (10_state.md R11, R12, R15, 41_init_sequencer.md R93): it holds at power-on and every step
keeps it. -/

namespace Sys2Proof.Machine

/-! ### Power-on -/

theorem powerOn_reader (cfg : Config) (contents : Vector (Nat × Nat) 3) (q : Slot) :
    (State.powerOn cfg contents).reader q = Reader.powerOn contents[q] := by
  match q with
  | 0 | 1 | 2 => rfl

/-- Settles O52: the fields of the power-on state, and its readers slot by slot. -/
theorem powerOnValues : Obligations.PowerOnValues :=
  ⟨fun cfg contents q => ⟨rfl, powerOn_reader cfg contents q, rfl, rfl, rfl, rfl, rfl⟩, rfl⟩

theorem powerOn_inv {cfg : Config} {contents : Vector (Nat × Nat) 3} (hc : cfg.WellFormed)
    (hfit : ∀ q : Slot, contents[q].1 < 2 ^ cfg.codeW ∧ contents[q].2 < 2 ^ cfg.countW) :
    (State.powerOn cfg contents).Inv := by
  refine ⟨hc, fun q => ?_, nofun, fun q => ?_⟩
  · rw [powerOn_reader]; exact hfit q
  · have hidle : (State.powerOn cfg contents).initializing (slotIx q) = false := rfl
    simp [hidle, powerOn_reader, Reader.powerOn, Line.powerOn, Line.AtRest]

/-- Settles O33: all lines are at rest and the sequencer is idle; 0 fits every register. -/
theorem invariantHoldsAfterPowerOn : Obligations.InvariantHoldsAfterPowerOn :=
  ⟨fun _ _ => powerOn_inv, powerOn_inv (by decide) (by decide)⟩

/-! ### The lines of one reader -/

/-- Both lines are at rest. -/
def Reader.AtRest (rd : Reader) : Prop := rd.zeroLine.AtRest ∧ rd.oneLine.AtRest

/-- Both lines are as the table of R93 says before the micro-operation number `p`. -/
def Reader.AtPhase (rd : Reader) (p : Phase) : Prop :=
  rd.zeroLine.AtPhase .zero p ∧ rd.oneLine.AtPhase .one p

theorem linesOk_iff (s : State) :
    s.LinesOk ↔ ∀ q : Slot, if s.initializing (slotIx q) = true then (s.reader q).AtPhase s.seqPhase
      else (s.reader q).AtRest := Iff.rfl

theorem LinesOk.atRest {s : State} (h : s.LinesOk) {q : Slot} (hi : s.initializing (slotIx q) = false) :
    (s.reader q).AtRest := by
  simpa [hi] using (linesOk_iff s).1 h q

theorem LinesOk.atPhase {s : State} (h : s.LinesOk) {q : Slot} (hi : s.initializing (slotIx q) = true) :
    (s.reader q).AtPhase s.seqPhase := by
  simpa [hi] using (linesOk_iff s).1 h q

/-- The sequence starts from lines at rest (R93). -/
theorem Reader.atPhase_zero {rd : Reader} (h : rd.AtRest) : rd.AtPhase 0 := h

/-- Each micro-operation before `CLEAR` takes the lines from its row of the table of R93 to the next. -/
theorem Reader.atPhase_act {rd : Reader} {m : MicroOp} (hm : m ≠ .clear) (h : rd.AtPhase m.phase) :
    (rd.act m).AtPhase (m.phase + 1) := by
  obtain ⟨hz, ho⟩ := h
  cases m with
  | clear => exact absurd rfl hm
  | zHigh => exact ⟨rfl, ho⟩
  | zLow => exact ⟨congrArg Line.driveLow hz, ho⟩
  | zRel => exact ⟨congrArg Line.release hz, ho⟩
  | oHigh => exact ⟨hz, rfl⟩
  | oLow => exact ⟨hz, congrArg Line.driveLow ho⟩
  | oRel => exact ⟨hz, congrArg Line.release ho⟩
  | settle => exact ⟨hz, ho⟩

/-- At phase 7 both lines are released (R93). -/
theorem Reader.lines_of_atPhase_seven {rd : Reader} (h : rd.AtPhase 7) :
    rd.zeroLine = ⟨.input, .low, true⟩ ∧ rd.oneLine = ⟨.input, .low, true⟩ := h

/-- `CLEAR` ends the sequence with both lines at rest (R90). -/
theorem Reader.atRest_act_clear {rd : Reader} (h : rd.AtPhase 7) : (rd.act .clear).AtRest := by
  obtain ⟨hz, ho⟩ := Reader.lines_of_atPhase_seven h
  exact ⟨by simp [Reader.act, hz, Line.AtRest], by simp [Reader.act, ho, Line.AtRest]⟩

/-- A micro-operation writes no data register but to 0. -/
theorem Reader.act_le (m : MicroOp) (rd : Reader) : (rd.act m).code ≤ rd.code ∧ (rd.act m).cnt ≤ rd.cnt := by
  cases m <;> simp [Reader.act]

/-! ### Every step keeps the invariant -/

section
variable {s t : State}

/-- The invariant speaks of the lines, the configuration and the sequencer; and of the data registers by
their range alone. -/
theorem inv_of_same_lines (h : s.Inv) (hcfg : t.cfg = s.cfg) (hbusy : t.busy = s.busy)
    (hseqR : t.seqR = s.seqR) (hphase : t.seqPhase = s.seqPhase)
    (hlines : ∀ q, (t.reader q).zeroLine = (s.reader q).zeroLine ∧
      (t.reader q).oneLine = (s.reader q).oneLine)
    (hrange : t.InRange) : t.Inv := by
  obtain ⟨hc, -, hseq, hok⟩ := h
  refine ⟨hcfg ▸ hc, hrange, ?_, fun q => ?_⟩
  · simpa only [State.SeqOk, hcfg, hbusy, hseqR] using hseq
  · obtain ⟨hz, ho⟩ := hlines q
    have hinit : t.initializing (slotIx q) = s.initializing (slotIx q) := by
      simp only [State.initializing, hbusy, hseqR]
    simpa only [hinit, hphase, hz, ho] using hok q

/-- The marks and the model's own fields have no part in the invariant. -/
theorem inv_of_sameHardware (h : s.Inv) (hw : s.SameHardware t) : t.Inv := by
  obtain ⟨hcfg, hreaders, hbusy, hseqR, hphase⟩ := hw
  have hreader (q : Slot) : t.reader q = s.reader q := by simp only [State.reader, hreaders]
  refine inv_of_same_lines h hcfg hbusy hseqR hphase (fun q => by simp [hreader]) fun q => ?_
  rw [hcfg, hreader]
  exact h.2.1 q

theorem inv_taking (h : s.Inv) (rest : List StimulusWord) : (s.taking rest).Inv :=
  inv_of_sameHardware h (by simp [State.SameHardware])

theorem inv_raise (h : s.Inv) (o : StepOutcome) : (s.raise o).Inv :=
  inv_of_sameHardware h (by simp [State.SameHardware])

theorem inv_returns (h : s.Inv) (v : Nat) : (s.returns v).Inv :=
  inv_of_sameHardware h (by simp [State.SameHardware])

theorem inv_appendBit (h : s.Inv) (q : Slot) (b : Bool) : (appendBit s q b).Inv := by
  obtain ⟨-, hrange, -, -⟩ := id h
  refine inv_of_same_lines h rfl rfl rfl rfl (fun q' => ?_) fun q' => ?_ <;> rw [appendBit_reader]
  · split
    next hq => subst hq; simp
    next => simp
  · split
    next => exact ⟨append_lt _ _ _, inc_lt _ _⟩
    next => exact hrange q'

theorem inv_startInit (h : s.Inv) (hb : s.busy = false) {r : ReaderIx}
    (hr : (readerSlot s.cfg r).isSome = true) : (s.startInit r).Inv := by
  obtain ⟨hc, hrange, -, hok⟩ := h
  refine ⟨hc, hrange, fun _ => hr, (linesOk_iff _).2 fun q => ?_⟩
  have hrest : (s.reader q).AtRest := LinesOk.atRest hok (initializing_eq_false.2 (.inl hb))
  split
  · exact Reader.atPhase_zero hrest
  · exact hrest

theorem inRange_sequencerStep (h : s.InRange) (m : MicroOp) (q : Slot) :
    (microAct m q s).advance.InRange := by
  intro q'
  obtain ⟨hcode, hcnt⟩ := h q'
  simp only [advance_reader, advance_cfg, microAct_cfg]
  by_cases hqq : q' = q
  · subst hqq
    obtain ⟨hcode', hcnt'⟩ := Reader.act_le m (s.reader q')
    rw [microAct_reader_same]
    exact ⟨hcode'.trans_lt hcode, hcnt'.trans_lt hcnt⟩
  · rw [microAct_reader_other m s hqq]
    exact ⟨hcode, hcnt⟩

/-- A sequencer step moves the reader under initialization one row down the table of R93, and leaves the
other readers at rest. -/
theorem linesOk_sequencerStep (h : s.LinesOk) (hb : s.busy = true) {q : Slot} (hr : s.seqR = slotIx q) :
    (microAct (MicroOp.ofPhase s.seqPhase) q s).advance.LinesOk := by
  refine (linesOk_iff _).2 fun q' => ?_
  rw [advance_reader]
  by_cases hqq : q' = q
  · subst hqq
    have hrow : (s.reader q').AtPhase s.seqPhase := LinesOk.atPhase h (initializing_eq_true.2 ⟨hb, hr⟩)
    rw [microAct_reader_same]
    by_cases hp : s.seqPhase = 7
    · obtain ⟨hidle, -⟩ := busy_of_last_step (m := MicroOp.ofPhase s.seqPhase) (q := q') hp
      rw [if_neg (by simp [initializing_eq_false.2 (.inl hidle)])]
      rw [hp] at hrow ⊢
      exact Reader.atRest_act_clear hrow
    · obtain ⟨hbusy, hphase⟩ := busy_of_earlier_step (q := q') hp
      rw [if_pos (initializing_eq_true.2 ⟨hbusy.trans hb, by simpa using hr⟩), hphase]
      simpa using Reader.atPhase_act (m := .ofPhase s.seqPhase) (ofPhase_ne_clear hp) (by simpa using hrow)
  · have hne : s.seqR ≠ slotIx q' := fun he => hqq (slotIx_injective (he.symm.trans hr))
    have hrest : (s.reader q').AtRest := LinesOk.atRest h (initializing_eq_false.2 (.inr hne))
    rw [microAct_reader_other _ s hqq, if_neg (by simp [State.initializing, hne])]
    exact hrest

theorem inv_sequencerStep (h : s.Inv) (hb : s.busy = true) {q : Slot}
    (hq : readerSlot s.cfg s.seqR = some q) :
    (microAct (MicroOp.ofPhase s.seqPhase) q s).advance.Inv := by
  obtain ⟨hc, hrange, -, hok⟩ := h
  exact ⟨by simpa using hc, inRange_sequencerStep hrange _ q, fun _ => by simp [hq],
    linesOk_sequencerStep hok hb (readerSlot_eq_some.1 hq).1⟩

/-- What an accepted word does from a state of the invariant: it answers a next state of the invariant,
because a busy sequencer names a reader that exists. -/
theorem StimulusEffect.next_inv {i : Instr} {o : Host.Outcome State Fault Refusal} (h : s.Inv)
    (effect : StimulusEffect s i o) : ∃ t, o = .next t ∧ t.Inv := by
  obtain ⟨-, -, hseq, -⟩ := id h
  cases effect with
  | badReader => exact ⟨_, rfl, inv_raise h _⟩
  | initRace => exact ⟨_, rfl, inv_raise h _⟩
  | valid => exact ⟨_, rfl, inv_appendBit h _ _⟩
  | spurious => exact ⟨_, rfl, h⟩
  | readCode => exact ⟨_, rfl, inv_returns h _⟩
  | readCount => exact ⟨_, rfl, inv_returns h _⟩
  | busy => exact ⟨_, rfl, inv_raise h _⟩
  | start hq hb => exact ⟨_, rfl, inv_startInit h hb hq⟩
  | notBusy => exact ⟨_, rfl, inv_raise h _⟩
  | absent hb hq => simpa [hq] using hseq hb
  | micro hb hq => exact ⟨_, rfl, inv_sequencerStep h hb hq⟩

/-- Settles O34: a step takes a word, which keeps the invariant, and then refuses it or runs its
instruction. -/
theorem stepKeepsTheInvariantAndNeverStops : Obligations.StepKeepsTheInvariantAndNeverStops := by
  intro s h
  have hc : s.cfg.WellFormed := h.1
  cases hs : s.stimuli with
  | nil => exact ⟨s, step_no_stimulus hc hs, h⟩
  | cons w rest =>
    cases hd : decodeStimulus w with
    | error e => exact ⟨_, step_reserved hc hs hd, inv_raise (inv_taking h rest) _⟩
    | ok i =>
      rw [step_decoded hc hs hd]
      exact (exec_effect hd _).next_inv (inv_taking h rest)

/-- Where the table of R93 has a line as an output. -/
theorem Line.phase_of_atPhase_output {l : Line} {k : LineSel} {p : Phase} (h : l.AtPhase k p)
    (hout : l.dir = .output) : p = 1 ∨ p = 2 ∨ p = 4 ∨ p = 5 := by
  cases k with
  | zero =>
    simp only [Line.AtPhase] at h
    split_ifs at h with h0 h1 h2
    · simp [h.1] at hout
    · exact .inl h1
    · exact .inr (.inl h2)
    · simp [h] at hout
  | one =>
    simp only [Line.AtPhase] at h
    split_ifs at h with h0 h4 h5
    · simp [h.1] at hout
    · exact .inr (.inr (.inl h4))
    · exact .inr (.inr (.inr h5))
    · simp [h] at hout

theorem Reader.AtRest.line {rd : Reader} (h : rd.AtRest) (k : LineSel) : (rd.line k).AtRest := by
  cases k
  · exact h.1
  · exact h.2

theorem Reader.AtPhase.line {rd : Reader} {p : Phase} (h : rd.AtPhase p) (k : LineSel) :
    (rd.line k).AtPhase k p := by
  cases k
  · exact h.1
  · exact h.2

/-- A line of a reader that is not under initialization is sampled at the outside level (R70, R93). -/
theorem sample_of_not_initializing (h : s.LinesOk) {q : Slot} (hi : s.initializing (slotIx q) = false)
    (k : LineSel) (x : Level) : sample s q k x = x :=
  sample_eq_of_input ((LinesOk.atRest h hi).line k).1 x

/-- Settles O35: an output is not at rest, so its reader is under initialization, in a row of the table
where that line is driven. -/
theorem linesAreDrivenOnlyDuringTheirInitialization :
    Obligations.LinesAreDrivenOnlyDuringTheirInitialization := by
  rintro s q k ⟨-, -, -, hok⟩
  refine ⟨fun hout => ?_, fun hidle => sample_of_not_initializing hok (initializing_eq_false.2 hidle) k⟩
  cases hi : s.initializing (slotIx q) with
  | false =>
    obtain ⟨hin, -⟩ := (LinesOk.atRest hok hi).line k
    simp [hin] at hout
  | true =>
    obtain ⟨hb, hr⟩ := initializing_eq_true.1 hi
    exact ⟨hb, hr, Line.phase_of_atPhase_output ((LinesOk.atPhase hok hi).line k) hout⟩

end

end Sys2Proof.Machine

/-! Rules over all instructions (10_state.md R10, R19, R23, R24, 60_exceptions.md R114): what any instruction
that answers a next state can have done, and the frames that follow. -/

namespace Sys2Proof.Machine

/-! ### What an instruction can do -/

/-- Everything an instruction `i` that answers a next state from `s` can have done: raise an outcome, do
nothing (a spurious edge), append the bit of a valid edge, hand back a register, start the sequencer, or
perform one of its steps. -/
inductive NextEffect (s : State) (i : Instr) : State → Prop
  | raised (o : StepOutcome) : NextEffect s i (s.raise o)
  | unchanged : NextEffect s i s
  | appended {r : ReaderIx} {q : Slot} (k : LineSel) (x : Level) (hi : i = k.edge r x)
      (hq : readerSlot s.cfg r = some q) : NextEffect s i (appendBit s q k.bitValue)
  | read (r : ReaderIx) (v : Nat) (hi : i = .rdcode r ∨ i = .rdcnt r) : NextEffect s i (s.returns v)
  | started (r : ReaderIx) (hi : i = .init r) : NextEffect s i (s.startInit r)
  | sequenced (m : MicroOp) {q : Slot} (hi : i = .seq ∨ i = m.instr)
      (hq : readerSlot s.cfg s.seqR = some q) : NextEffect s i (microAct m q s).advance

theorem exec_nextEffect {i : Instr} {s t : State} (h : exec i s = .next t) : NextEffect s i t := by
  obtain ⟨w, hw⟩ | ⟨m, rfl⟩ := stimulus_or_microOp i
  · have effect := exec_effect hw s
    rw [h] at effect
    cases effect with
    | badReader | initRace | busy | notBusy => exact .raised _
    | valid k x hq => exact .appended k x rfl hq
    | spurious => exact .unchanged
    | readCode => exact .read _ _ (.inl rfl)
    | readCount => exact .read _ _ (.inr rfl)
    | start => exact .started _ rfl
    | micro _ hq => exact .sequenced _ (.inl rfl) hq
  · rw [exec_microOp, microStep_eq_next] at h
    obtain ⟨q, hq, rfl⟩ := h
    exact .sequenced m (.inr rfl) hq

/-- The instruction is `SEQ` or a micro-operation. -/
def IsSequencerStep (i : Instr) : Prop := i = .seq ∨ ∃ m : MicroOp, i = m.instr

theorem isSequencerStep_of {i : Instr} {m : MicroOp} (h : i = .seq ∨ i = m.instr) : IsSequencerStep i :=
  h.imp_right fun hm => ⟨m, hm⟩

/-! ### Frames -/

section
variable {i : Instr} {s t : State}

theorem exec_keeps_stimuli (h : exec i s = .next t) : t.stimuli = s.stimuli := by
  cases exec_nextEffect h <;> simp

/-- The lines of a reader are written by the sequencer steps on it alone (R23). -/
theorem exec_keeps_lines (h : exec i s = .next t) {q : Slot}
    (hq : ¬ (IsSequencerStep i ∧ s.seqR = slotIx q)) :
    (t.reader q).zeroLine = (s.reader q).zeroLine ∧ (t.reader q).oneLine = (s.reader q).oneLine := by
  cases exec_nextEffect h with
  | raised | unchanged | read | started => simp
  | appended => rw [appendBit_reader]; split <;> simp [*]
  | @sequenced m q' hi hq' =>
    have hne : q ≠ q' := by
      rintro rfl
      exact hq ⟨isSequencerStep_of hi, (readerSlot_eq_some.1 hq').1⟩
    simp [microAct_reader_other m s hne]

/-- A reader that does not exist is not touched (R10). -/
theorem exec_keeps_absent (h : exec i s = .next t) {q : Slot} (hq : s.cfg.nReaders ≤ q.val) :
    t.reader q = s.reader q := by
  have absent {r : ReaderIx} {q' : Slot} (hq' : readerSlot s.cfg r = some q') : q ≠ q' := by
    rintro rfl
    exact absurd (readerSlot_eq_some.1 hq').2 (Nat.not_lt.2 hq)
  cases exec_nextEffect h with
  | raised | unchanged | read | started => simp
  | appended k x hi hq' => rw [appendBit_reader, if_neg (absent hq')]
  | sequenced m hi hq' => rw [advance_reader, microAct_reader_other m s (absent hq')]

/-- The sequencer registers are written by `INIT` and sequencer steps alone (R23). -/
theorem exec_keeps_sequencer (h : exec i s = .next t) (hs : ¬ IsSequencerStep i) (hi : ∀ r, i ≠ .init r) :
    t.busy = s.busy ∧ t.seqR = s.seqR ∧ t.seqPhase = s.seqPhase := by
  cases exec_nextEffect h with
  | raised | unchanged | read | appended => simp
  | started r hr => exact absurd hr (hi r)
  | sequenced m hm => exact absurd (isSequencerStep_of hm) hs

/-- Only reads hand back a value (R23). -/
theorem exec_keeps_returned (h : exec i s = .next t) (hi : ∀ r, i ≠ .rdcode r ∧ i ≠ .rdcnt r) :
    t.returned = s.returned := by
  cases exec_nextEffect h with
  | raised | unchanged | appended | sequenced => simp
  | started => rfl
  | read r v hr => exact absurd hr (not_or.2 (hi r))

/-- Only sequencer steps request a delay (R88). -/
theorem exec_keeps_delayReq (h : exec i s = .next t) (hi : ¬ IsSequencerStep i) :
    t.delayReq = s.delayReq := by
  cases exec_nextEffect h with
  | raised | unchanged | read => simp
  | appended | started => rfl
  | sequenced m hm => exact absurd (isSequencerStep_of hm) hi

/-- The index of a slot names it, or the slot is that of an absent reader (R10). -/
theorem readerSlot_or_absent (cfg : Config) (q : Slot) :
    readerSlot cfg (slotIx q) = some q ∨ cfg.nReaders ≤ q.val :=
  (Nat.lt_or_ge q.val cfg.nReaders).imp_left readerSlot_slotIx

/-- The data registers of a reader are written by its own edges and its own `CLEAR` alone (R23). -/
theorem exec_keeps_registers_of_slot (h : exec i s = .next t) {q : Slot}
    (hedge : edgeOf (slotIx q) i = false) (hclear : ¬ Clears s (slotIx q) i) :
    (t.reader q).code = (s.reader q).code ∧ (t.reader q).cnt = (s.reader q).cnt := by
  obtain hq | hq := readerSlot_or_absent s.cfg q
  · exact exec_keeps_registers hq h hedge hclear
  · simp [exec_keeps_absent h hq]

/-- `CLEAR` leaves both data registers 0 (R89). -/
theorem registers_of_clears (h : exec i s = .next t) {q : Slot} (hclear : Clears s (slotIx q) i) :
    (t.reader q).code = 0 ∧ (t.reader q).cnt = 0 := by
  obtain ⟨hr, hi⟩ := hclear
  have hexec : exec .clear s = .next t := by
    obtain rfl | ⟨rfl, hb, hp⟩ := hi
    · exact h
    · exact (exec_seq_eq_exec_clear hb hp).symm.trans h
  obtain ⟨q', hq', rfl⟩ := microStep_eq_next.1 ((exec_microOp .clear s).symm.trans hexec)
  obtain rfl : q' = q := slotIx_injective ((readerSlot_eq_some.1 hq').1.symm.trans hr)
  simp [Reader.act]

end

/-- Settles O49: the frames above, one for each right of R23. -/
theorem agentsKeepToTheirRights : Obligations.AgentsKeepToTheirRights :=
  fun _ _ _ _ h => ⟨exec_keeps_lines h, exec_keeps_registers_of_slot h, registers_of_clears h,
    exec_keeps_sequencer h, exec_keeps_returned h, exec_keeps_delayReq h, exec_keeps_cfg h,
    exec_keeps_stimuli h⟩

/-! ### Rules of a whole step -/

section
variable {s t : State}

/-- What a step that takes a word does, from the state with the word taken. -/
theorem step_taking_cases {w : StimulusWord} {rest : List StimulusWord} (hs : s.stimuli = w :: rest)
    (h : step s = .next t) :
    (∃ e, decodeStimulus w = .error e ∧ t = (s.taking rest).raise (.refuse .reserved)) ∨
    ∃ i, decodeStimulus w = .ok i ∧ exec i (s.taking rest) = .next t := by
  obtain ⟨-, ⟨hnil, -⟩ | ⟨w', rest', hs', hcases⟩⟩ := step_next_cases h
  · simp [hs] at hnil
  · obtain ⟨rfl, rfl⟩ : w = w' ∧ rest = rest' := by simpa [hs] using hs'
    exact hcases

/-- What holds when nothing happens, when the word is refused, and after every instruction that a word
decodes to, holds after every step. -/
theorem step_induction {P : State → Prop} (h : step s = .next t) (hrefl : P s)
    (hreserved : ∀ rest, P ((s.taking rest).raise (.refuse .reserved)))
    (hexec : ∀ w rest i, s.stimuli = w :: rest → decodeStimulus w = .ok i →
      exec i (s.taking rest) = .next t → P t) : P t := by
  obtain ⟨-, ⟨-, rfl⟩ | ⟨w, rest, hs, ⟨e, -, rfl⟩ | ⟨i, hd, he⟩⟩⟩ := step_next_cases h
  · exact hrefl
  · exact hreserved rest
  · exact hexec w rest i hs hd he

theorem step_keeps_absent (h : step s = .next t) {q : Slot} (hq : s.cfg.nReaders ≤ q.val) :
    t.reader q = s.reader q :=
  step_induction (P := fun t => t.reader q = s.reader q) h rfl (fun _ => by simp)
    fun _ _ _ _ _ he => exec_keeps_absent he hq

theorem step_keeps_cfg (h : step s = .next t) : t.cfg = s.cfg :=
  step_induction (P := fun t => t.cfg = s.cfg) h rfl (fun _ => by simp)
    fun _ rest _ _ _ he => exec_keeps_cfg (s := s.taking rest) he

/-- A step leaves the words after the one it takes (R54). -/
theorem step_stimuli {w : StimulusWord} {rest : List StimulusWord} (hs : s.stimuli = w :: rest)
    (h : step s = .next t) : t.stimuli = rest := by
  obtain ⟨e, -, rfl⟩ | ⟨i, -, he⟩ := step_taking_cases hs h
  · simp
  · simpa using exec_keeps_stimuli he

end

/-- Settles O53: every effect on a reader is on one that a slot was found for. -/
theorem absentReadersAreNeverTouched : Obligations.AbsentReadersAreNeverTouched :=
  fun _ _ _ h hq => step_keeps_absent h hq

/-! ### The marks -/

/-- No operation clears a mark (R24). -/
theorem exec_marks_sticky {i : Instr} {s t : State} (h : exec i s = .next t) :
    (s.faulted = true → t.faulted = true) ∧ (s.refused = true → t.refused = true) := by
  cases exec_nextEffect h with
  | raised o => cases o <;> simp +contextual [State.raise]
  | unchanged | appended | read | sequenced => simp
  | started => exact ⟨id, id⟩

/-- Settles O42: a mark is written by raising an outcome alone, which sets it. -/
theorem marksAreSticky : Obligations.MarksAreSticky := fun s _ h =>
  step_induction
    (P := fun t => (s.faulted = true → t.faulted = true) ∧ (s.refused = true → t.refused = true))
    h ⟨id, id⟩ (fun _ => by simp) fun _ rest _ _ _ he => exec_marks_sticky (s := s.taking rest) he

/-- The outcome of a step from `s` to `t` sets its own mark and no other; and a step that does not end Ok
changes nothing else (R114). -/
def OutcomeSetsItsMark (s t : State) : Prop :=
  match t.outcome with
  | .ok => t.faulted = s.faulted ∧ t.refused = s.refused
  | .fault _ => t.faulted = true ∧ t.refused = s.refused ∧ s.SameHardware t ∧ t.returned = none ∧
      t.delayReq = none
  | .refuse _ => t.refused = true ∧ t.faulted = s.faulted ∧ s.SameHardware t ∧ t.returned = none ∧
      t.delayReq = none

theorem outcomeSetsItsMark_raise (s : State) (rest : List StimulusWord) (o : StepOutcome) :
    OutcomeSetsItsMark s ((s.taking rest).raise o) := by
  have hsame := sameHardware_taking_raise s rest o
  cases o with
  | ok => exact ⟨rfl, rfl⟩
  | fault c => exact ⟨rfl, rfl, hsame, rfl, rfl⟩
  | refuse c => exact ⟨rfl, rfl, hsame, rfl, rfl⟩

theorem outcomeSetsItsMark_ok {s t : State} (ho : t.outcome = .ok) (hf : t.faulted = s.faulted)
    (hr : t.refused = s.refused) : OutcomeSetsItsMark s t := by
  unfold OutcomeSetsItsMark
  rw [ho]
  exact ⟨hf, hr⟩

/-- Settles O44: an instruction either raises its outcome or leaves outcome and marks as they are once the
word is taken. -/
theorem outcomesSetTheirMarks : Obligations.OutcomesSetTheirMarks := by
  intro s t w rest hs h
  show OutcomeSetsItsMark s t
  obtain ⟨e, -, rfl⟩ | ⟨i, -, he⟩ := step_taking_cases hs h
  · exact outcomeSetsItsMark_raise s rest _
  · cases exec_nextEffect he with
    | raised o => exact outcomeSetsItsMark_raise s rest o
    | unchanged | appended | read | started => exact outcomeSetsItsMark_ok rfl rfl rfl
    | sequenced => exact outcomeSetsItsMark_ok (by simp) (by simp) (by simp)

/-! ### Routing by pin -/

/-- Settles O47: a configured pin is the pin of its line alone, and an edge of a line is its own operation
(R117). -/
theorem edgesAreRoutedByPin : Obligations.EdgesAreRoutedByPin := by
  intro cfg x hc
  have routed (r : ReaderIx) (pair : PinPair) (hr : cfg.lines[r.toNat]? = some pair) (k : LineSel) :
      edgeOfPin cfg (pinOf pair k) x = some (k.edge r x) := by
    simp [edgeOfPin, (lineOfPin_eq_some hc).2 ⟨pair, hr, rfl⟩]
  refine ⟨fun r pair hr => ⟨routed r pair hr .zero, routed r pair hr .one⟩, fun p hp => ?_⟩
  cases hl : lineOfPin cfg p with
  | none => simp [edgeOfPin, hl]
  | some l =>
    obtain ⟨pair, hr, rfl⟩ := (lineOfPin_eq_some hc).1 hl
    exact absurd (pinOf_mem_pinsOf hr l.2) hp

/-! ### The count between clears -/

/-- Settles O48: an edge adds at most 1 and the only other write of a count is `CLEAR`, which a step
performs by `SEQ` at phase 7 alone. -/
theorem countNeverDecreasesBetweenClears : Obligations.CountNeverDecreasesBetweenClears := by
  intro s t q hrange h hclear
  obtain hq | hq := readerSlot_or_absent s.cfg q
  case inr => simp [step_keeps_absent h hq]
  case inl =>
    refine step_induction
      (P := fun t => (s.reader q).cnt ≤ (t.reader q).cnt ∧ (t.reader q).cnt ≤ (s.reader q).cnt + 1)
      h (by simp) (fun _ => by simp) fun w rest i hs hd he => ?_
    cases exec_registerEffect (s := s.taking rest) hq he with
    | kept _ hcnt => simp [hcnt]
    | appended b _ _ hcnt => rw [hcnt]; exact ⟨le_inc (hrange q).2, inc_le_succ _ _⟩
    | cleared hi =>
      obtain ⟨hr, rfl | ⟨rfl, hb, hp⟩⟩ := hi
      · exact absurd hd (decodeStimulus_no_microOp .clear)
      · exact absurd ⟨by rw [hs, eq_word_of_decodeStimulus hd, word_seq]; rfl, hb, hr, hp⟩ hclear

end Sys2Proof.Machine

/-! Noninterference (10_state.md R24, 20_memory.md R40): the marks, and the readers that a step does not
name, have no part in what it does. -/

namespace Sys2Proof.Machine

/-- The cases of `StimulusEffect` determine the meaning: in each of them `exec` answers what it says. -/
theorem StimulusEffect.exec_eq {s : State} {i : Instr} {o : Host.Outcome State Fault Refusal}
    (effect : StimulusEffect s i o) : exec i s = o := by
  cases effect with
  | badReader hi hq => exact exec_badReader hi hq
  | initRace k x hq hr => exact exec_edge_of_initializing k x hq hr
  | valid k x hq hr hx => exact exec_edge_of_sample_low hq hr hx
  | spurious k x hq hr hx => exact exec_edge_of_sample_high hq hr hx
  | readCode hq => exact exec_rdcode_of_readerSlot hq
  | readCount hq => exact exec_rdcnt_of_readerSlot hq
  | busy hq hb => exact exec_init_busy hq hb
  | start hq hb => exact exec_init_idle hq hb
  | notBusy hb => exact exec_seq_idle hb
  | absent hb hq => exact (execSeq_busy hb).trans (microStep_none hq)
  | micro hb hq => exact (execSeq_busy hb).trans (microStep_some hq)

/-! ### Other marks -/

/-- The state with the marks replaced. -/
def State.withMarks (s : State) (f g : Bool) : State := { s with faulted := f, refused := g }

section
variable (s : State) (f g : Bool)

/-- Raising an outcome sets its own mark, whatever the marks were. -/
theorem raise_withMarks (o : StepOutcome) :
    ∃ f' g', (s.withMarks f g).raise o = (s.raise o).withMarks f' g' := by
  cases o with
  | ok => exact ⟨f, g, rfl⟩
  | fault c => exact ⟨true, g, rfl⟩
  | refuse c => exact ⟨f, true, rfl⟩

@[simp] theorem advance_withMarks : (s.withMarks f g).advance = s.advance.withMarks f g := by
  by_cases h : s.seqPhase = 7
  · rw [advance_last h, advance_last (s := s.withMarks f g) h]; rfl
  · rw [advance_earlier h, advance_earlier (s := s.withMarks f g) h]; rfl

@[simp] theorem microAct_withMarks (m : MicroOp) (q : Slot) :
    microAct m q (s.withMarks f g) = (microAct m q s).withMarks f g := by cases m <;> rfl

variable {s}

/-- With other marks an instruction takes the same case and answers the same state but for the marks. -/
theorem StimulusEffect.withMarks {i : Instr} {t : State} (effect : StimulusEffect s i (.next t)) :
    ∃ f' g', StimulusEffect (s.withMarks f g) i (.next (t.withMarks f' g')) := by
  have raised (o : StepOutcome)
      (h : StimulusEffect (s.withMarks f g) i (.next ((s.withMarks f g).raise o))) :
      ∃ f' g', StimulusEffect (s.withMarks f g) i (.next ((s.raise o).withMarks f' g')) := by
    obtain ⟨f', g', he⟩ := raise_withMarks s f g o
    exact ⟨f', g', he ▸ h⟩
  cases effect with
  | badReader hi hq => exact raised _ (.badReader hi hq)
  | initRace k x hq hr => exact raised _ (.initRace k x hq hr)
  | valid k x hq hr hx => exact ⟨f, g, .valid (s := s.withMarks f g) k x hq hr hx⟩
  | spurious k x hq hr hx => exact ⟨f, g, .spurious k x hq hr hx⟩
  | readCode hq => exact ⟨f, g, .readCode (s := s.withMarks f g) hq⟩
  | readCount hq => exact ⟨f, g, .readCount (s := s.withMarks f g) hq⟩
  | busy hq hb => exact raised _ (.busy hq hb)
  | start hq hb => exact ⟨f, g, .start (s := s.withMarks f g) hq hb⟩
  | notBusy hb => exact raised _ (.notBusy hb)
  | micro hb hq =>
    refine ⟨f, g, ?_⟩
    rw [← advance_withMarks, ← microAct_withMarks]
    exact .micro (s := s.withMarks f g) hb hq

/-- With other marks a step answers the same state but for the marks (R24). -/
theorem step_withMarks {t : State} (h : step s = .next t) :
    ∃ f' g', step (s.withMarks f g) = .next (t.withMarks f' g') := by
  obtain ⟨hc, ⟨hs, rfl⟩ | ⟨w, rest, hs, ⟨e, hd, rfl⟩ | ⟨i, hd, he⟩⟩⟩ := step_next_cases h
  · exact ⟨f, g, step_no_stimulus hc hs⟩
  · obtain ⟨f', g', hr⟩ := raise_withMarks (s.taking rest) f g (.refuse .reserved)
    exact ⟨f', g', (step_reserved (s := s.withMarks f g) hc hs hd).trans (congrArg _ hr)⟩
  · have effect := exec_effect hd (s.taking rest)
    rw [he] at effect
    obtain ⟨f', g', effect'⟩ := effect.withMarks f g
    exact ⟨f', g', (step_decoded (s := s.withMarks f g) hc hs hd).trans effect'.exec_eq⟩

end

/-- Settles O43: the two next states differ in their marks alone. -/
theorem marksChangeNoResult : Obligations.MarksChangeNoResult := by
  intro s t f g h
  obtain ⟨f', g', h'⟩ := step_withMarks f g h
  exact ⟨_, h', by simp [State.SameHardware, State.withMarks]⟩

/-! ### Other contents of a reader -/

section
variable (s : State) (q : Slot) (rd : Reader)

@[simp] theorem raise_setReader (o : StepOutcome) :
    (s.setReader q rd).raise o = (s.raise o).setReader q rd := by cases o <;> rfl

@[simp] theorem returns_setReader (v : Nat) :
    (s.setReader q rd).returns v = (s.returns v).setReader q rd := rfl

@[simp] theorem advance_setReader : (s.setReader q rd).advance = s.advance.setReader q rd := by
  by_cases h : s.seqPhase = 7
  · rw [advance_last h, advance_last (s := s.setReader q rd) h]; rfl
  · rw [advance_earlier h, advance_earlier (s := s.setReader q rd) h]; rfl

variable {q} {q' : Slot} (hne : q' ≠ q)
include hne

theorem sample_setReader_other (k : LineSel) (x : Level) :
    sample (s.setReader q rd) q' k x = sample s q' k x := by
  simp [sample, reader_setReader_other s rd hne]

theorem appendBit_setReader_other (b : Bool) :
    appendBit (s.setReader q rd) q' b = (appendBit s q' b).setReader q rd := by
  simp [appendBit, reader_setReader_other s rd hne, setReader_comm s rd _ hne.symm]

theorem actOnLine_setReader_other (k : LineSel) (f : Line → Line) :
    (s.setReader q rd).actOnLine q' k f = (s.actOnLine q' k f).setReader q rd := by
  simp [actOnLine_eq, reader_setReader_other s rd hne, setReader_comm s rd _ hne.symm]

theorem clearReader_setReader_other :
    (s.setReader q rd).clearReader q' = (s.clearReader q').setReader q rd := by
  simp only [State.clearReader, reader_setReader_other s rd hne, setReader_comm s rd _ hne.symm]
  rfl

/-- An action on one reader neither reads nor writes another (R40). -/
theorem microAct_setReader_other (m : MicroOp) :
    microAct m q' (s.setReader q rd) = (microAct m q' s).setReader q rd := by
  cases m with
  | zHigh | zLow | zRel | oHigh | oLow | oRel => exact actOnLine_setReader_other s rd hne _ _
  | settle => rfl
  | clear => exact clearReader_setReader_other s rd hne

end

/-- The instruction, run in `s`, has nothing to do with the contents of the reader `q`: it names another
reader or only starts the initialization of `q`, and `SEQ` is not a step on `q`. -/
def Ignores (s : State) (q : Slot) (i : Instr) : Prop :=
  (i.reader? = some (slotIx q) → i = .init (slotIx q)) ∧ (i = .seq → s.busy = false ∨ s.seqR ≠ slotIx q)

section
variable {s t : State} {q : Slot} {i : Instr}

@[simp] theorem reader?_edge (k : LineSel) (r : ReaderIx) (x : Level) : (k.edge r x).reader? = some r := by
  cases k <;> rfl

/-- An instruction of another reader than `q` runs on another slot than `q`. -/
theorem Ignores.slot_ne (h : Ignores s q i) {r : ReaderIx} (hi : i.reader? = some r)
    (hinit : i ≠ .init (slotIx q)) {q' : Slot} (hq' : readerSlot s.cfg r = some q') : q' ≠ q := by
  rintro rfl
  exact hinit (h.1 (hi.trans (congrArg some (readerSlot_eq_some.1 hq').1)))

/-- With other contents of a reader that it ignores, an instruction takes the same case and answers the same
state, those contents kept. -/
theorem StimulusEffect.setReader (rd : Reader) (effect : StimulusEffect s i (.next t))
    (h : Ignores s q i) : StimulusEffect (s.setReader q rd) i (.next (t.setReader q rd)) := by
  cases effect with
  | badReader hi hq => simpa using StimulusEffect.badReader (s := s.setReader q rd) hi hq
  | initRace k x hq hr => simpa using StimulusEffect.initRace (s := s.setReader q rd) k x hq hr
  | valid k x hq hr hx =>
    have hne := h.slot_ne (reader?_edge k _ x) (by cases k <;> nofun) hq
    rw [← appendBit_setReader_other s rd hne]
    exact .valid k x hq hr (by rwa [sample_setReader_other s rd hne])
  | spurious k x hq hr hx =>
    have hne := h.slot_ne (reader?_edge k _ x) (by cases k <;> nofun) hq
    exact .spurious k x hq hr (by rwa [sample_setReader_other s rd hne])
  | readCode hq =>
    have hne := h.slot_ne rfl nofun hq
    simpa [reader_setReader_other s rd hne] using StimulusEffect.readCode (s := s.setReader q rd) hq
  | readCount hq =>
    have hne := h.slot_ne rfl nofun hq
    simpa [reader_setReader_other s rd hne] using StimulusEffect.readCount (s := s.setReader q rd) hq
  | busy hq hb => simpa using StimulusEffect.busy (s := s.setReader q rd) hq hb
  | start hq hb => exact .start (s := s.setReader q rd) hq hb
  | notBusy hb => simpa using StimulusEffect.notBusy (s := s.setReader q rd) hb
  | @micro q' hb hq =>
    have hne : q' ≠ q := by
      rintro rfl
      simpa [hb, (readerSlot_eq_some.1 hq).1] using h.2 rfl
    rw [← advance_setReader, ← microAct_setReader_other s rd hne]
    exact .micro (s := s.setReader q rd) hb hq

end

/-- Settles O50: the word is refused in both states, or its instruction takes the same case in both. -/
theorem stepReadsNothingOfOtherReaders : Obligations.StepReadsNothingOfOtherReaders := by
  intro s t w rest q rd hs hseq hnamed h
  have hc : s.cfg.WellFormed := (step_next_cases h).1
  obtain ⟨e, hd, rfl⟩ | ⟨i, hd, he⟩ := step_taking_cases hs h
  · exact (step_reserved (s := s.setReader q rd) hc hs hd).trans
      (congrArg _ (raise_setReader (s.taking rest) q rd _))
  · have effect := exec_effect hd (s.taking rest)
    rw [he] at effect
    have hignores : Ignores (s.taking rest) q i :=
      ⟨hnamed i hd, fun hi => hseq (by rw [eq_word_of_decodeStimulus hd, hi, word_seq])⟩
    exact (step_decoded (s := s.setReader q rd) hc hs hd).trans (effect.setReader rd hignores).exec_eq

/-! ### Edges of different readers -/

section
variable {s : State} {r r' : ReaderIx} {q q' : Slot} {k k' : LineSel} {x x' : Level}

/-- The edge operation, from the meaning of its instruction. -/
theorem edgeStep_of_exec {t : State} (h : exec (k.edge r x) s = .next t) : edgeStep k r x s = t :=
  Host.Outcome.next.inj ((exec_edge k r x s).symm.trans h)

theorem edgeStep_of_initializing (hq : readerSlot s.cfg r = some q) (hi : s.initializing r = true) :
    edgeStep k r x s = s.raise (.fault .initRace) := edgeStep_of_exec (exec_edge_of_initializing k x hq hi)

theorem edgeStep_of_sample_low (hq : readerSlot s.cfg r = some q) (hi : s.initializing r = false)
    (hx : sample s q k x = .low) : edgeStep k r x s = appendBit s q k.bitValue :=
  edgeStep_of_exec (exec_edge_of_sample_low hq hi hx)

theorem edgeStep_of_sample_high (hq : readerSlot s.cfg r = some q) (hi : s.initializing r = false)
    (hx : sample s q k x = .high) : edgeStep k r x s = s := edgeStep_of_exec (exec_edge_of_sample_high hq hi hx)

/-- An edge of one reader leaves all that an edge of another one looks at (R40). -/
theorem edgeStep_keeps_other (hq' : readerSlot s.cfg r' = some q') (hne : q ≠ q') :
    (edgeStep k' r' x' s).cfg = s.cfg ∧ (edgeStep k' r' x' s).initializing r = s.initializing r ∧
      (edgeStep k' r' x' s).reader q = s.reader q := by
  obtain ⟨hnone, -⟩ | ⟨q₁, hq₁, ⟨-, he⟩ | ⟨-, -, he⟩ | ⟨-, -, he⟩⟩ := edgeStep_cases k' r' x' s
  · simp [hq'] at hnone
  · simp [he, State.initializing]
  · obtain rfl : q' = q₁ := by simpa [hq'] using hq₁
    simp [he, State.initializing, appendBit_reader, hne]
  · simp [he]

/-- The fault of another edge before it has no part in an edge operation, and stays recorded. -/
theorem edgeStep_raise_initRace (hq' : readerSlot s.cfg r' = some q') :
    edgeStep k' r' x' (s.raise (.fault .initRace)) = (edgeStep k' r' x' s).raise (.fault .initRace) := by
  have hq₁ : readerSlot (s.raise (.fault .initRace)).cfg r' = some q' := hq'
  cases hi : s.initializing r' with
  | true => rw [edgeStep_of_initializing hq' hi, edgeStep_of_initializing hq₁ hi]
  | false =>
    cases hx : sample s q' k' x' with
    | low => rw [edgeStep_of_sample_low hq' hi hx, edgeStep_of_sample_low hq₁ hi hx]; rfl
    | high => rw [edgeStep_of_sample_high hq' hi hx, edgeStep_of_sample_high hq₁ hi hx]

/-- Other contents of another reader have no part in an edge operation, and stay. -/
theorem edgeStep_setReader_other (rd : Reader) (hq' : readerSlot s.cfg r' = some q') (hne : q' ≠ q) :
    edgeStep k' r' x' (s.setReader q rd) = (edgeStep k' r' x' s).setReader q rd := by
  have hr : r' ≠ slotIx q := fun he => hne (slotIx_injective ((readerSlot_eq_some.1 hq').1.symm.trans he))
  have hignores : Ignores s q (k'.edge r' x') :=
    ⟨fun hi => absurd (by simpa using hi) hr, fun hi => by cases k' <;> cases hi⟩
  have effect := edge_effect k' r' x' s
  rw [exec_edge] at effect
  exact edgeStep_of_exec (effect.setReader rd hignores).exec_eq

/-- Edge operations of different readers commute: the second finds all that it looks at as it was, and the
first one's effect is kept by it (R40). -/
theorem edgeStep_comm (hq : readerSlot s.cfg r = some q) (hq' : readerSlot s.cfg r' = some q')
    (hne : q ≠ q') :
    edgeStep k' r' x' (edgeStep k r x s) = edgeStep k r x (edgeStep k' r' x' s) := by
  obtain ⟨hcfg, hinit, hreader⟩ := edgeStep_keeps_other (r := r) (k' := k') (x' := x') hq' hne
  have hq₂ : readerSlot (edgeStep k' r' x' s).cfg r = some q := by rw [hcfg, hq]
  have hsample : sample (edgeStep k' r' x' s) q k x = sample s q k x := by simp only [sample, hreader]
  cases hi : s.initializing r with
  | true =>
    rw [edgeStep_of_initializing hq hi, edgeStep_raise_initRace hq',
      edgeStep_of_initializing hq₂ (hinit.trans hi)]
  | false =>
    cases hx : sample s q k x with
    | low =>
      rw [edgeStep_of_sample_low hq hi hx, edgeStep_of_sample_low hq₂ (hinit.trans hi) (hsample.trans hx),
        appendBit, appendBit, edgeStep_setReader_other _ hq' hne.symm, hcfg, hreader]
    | high =>
      rw [edgeStep_of_sample_high hq hi hx, edgeStep_of_sample_high hq₂ (hinit.trans hi) (hsample.trans hx)]

end

/-- Settles O51: the two orders lead to the same state. -/
theorem edgesOfDifferentReadersCommute : Obligations.EdgesOfDifferentReadersCommute := by
  intro s r r' k k' x x' hr hr' hne
  obtain ⟨q, hq⟩ := Option.isSome_iff_exists.1 hr
  obtain ⟨q', hq'⟩ := Option.isSome_iff_exists.1 hr'
  have hqq : q ≠ q' := by
    rintro rfl
    exact hne (readerSlot_injective hq hq')
  exact ⟨_, _, _, exec_edge k r x s, exec_edge k' r' x' s, exec_edge k' r' x' _,
    (exec_edge k r x _).trans (congrArg _ (edgeStep_comm hq hq' hqq).symm)⟩

end Sys2Proof.Machine

/-! Traces (10_state.md R22, 40_edge_handlers.md R73, R74): along any list of words a reader that is not under
initialization receives the bits of its valid edges, in order. -/

namespace Sys2Proof.Machine

/-! ### Receiving bits -/

theorem traceBits_append (r : ReaderIx) (xs ys : List StimulusWord) :
    traceBits r (xs ++ ys) = traceBits r xs ++ traceBits r ys := List.filterMap_append

/-- One more bit appended and counted (R71 to R74). -/
def Reader.push (cfg : Config) (rd : Reader) (b : Bool) : Reader :=
  { rd with code := append cfg rd.code b, cnt := inc cfg rd.cnt }

/-- The bits appended and counted in order. -/
def Reader.receive (cfg : Config) (rd : Reader) (bits : List Bool) : Reader := bits.foldl (Reader.push cfg) rd

theorem appendBit_eq (s : State) (q : Slot) (b : Bool) :
    appendBit s q b = s.setReader q ((s.reader q).push s.cfg b) := rfl

@[simp] theorem Reader.receive_nil (cfg : Config) (rd : Reader) : rd.receive cfg [] = rd := rfl

theorem Reader.receive_append (cfg : Config) (rd : Reader) (xs ys : List Bool) :
    rd.receive cfg (xs ++ ys) = (rd.receive cfg xs).receive cfg ys := List.foldl_append

/-- In closed form: the bits are shifted into `code`, what passes `CODE_W` bits is lost, and their number is
added to the count up to its limit (R73, R74). -/
theorem Reader.receive_eq {cfg : Config} {rd : Reader} (hcode : rd.code < 2 ^ cfg.codeW)
    (hcnt : rd.cnt < 2 ^ cfg.countW) (bits : List Bool) :
    rd.receive cfg bits = { rd with
      code := (rd.code * 2 ^ bits.length + frameValue bits) % 2 ^ cfg.codeW
      cnt := min (rd.cnt + bits.length) (2 ^ cfg.countW - 1) } := by
  induction bits using List.reverseRecOn with
  | nil =>
    have hmin : min rd.cnt (2 ^ cfg.countW - 1) = rd.cnt := min_eq_left (Nat.le_sub_one_of_lt hcnt)
    simp [Nat.mod_eq_of_lt hcode, hmin]
  | append_singleton bits b ih =>
    have happend : append cfg ((rd.code * 2 ^ bits.length + frameValue bits) % 2 ^ cfg.codeW) b =
        (rd.code * 2 ^ (bits.length + 1) + (2 * frameValue bits + b.toNat)) % 2 ^ cfg.codeW := by
      refine (append_trunc cfg _ b).trans (congrArg (· % 2 ^ cfg.codeW) ?_)
      ring
    rw [Reader.receive_append, ih, frameValue_append, List.length_append, List.length_singleton, ← happend,
      ← inc_min]
    rfl

/-! ### What one word does to one reader -/

theorem validBit_edge (r r' : ReaderIx) (k : LineSel) (x : Level) :
    validBit r (k.edge r' x) = if r' = r ∧ x = .low then some k.bitValue else none := by
  cases k <;> rfl

/-- Only an instruction that names the reader contributes a bit to it. -/
theorem validBit_eq_none {r : ReaderIx} {i : Instr} (h : i.reader? ≠ some r) : validBit r i = none := by
  cases i with
  | edge0 r' x | edge1 r' x =>
    have hne : r' ≠ r := fun he => h (congrArg some he)
    simp [validBit, hne]
  | init | rdcode | rdcnt | seq | zHigh | zLow | zRel | oHigh | oLow | oRel | settle | clear => rfl

section
variable {s t : State} {r : ReaderIx} {q : Slot}

/-- A reader that is not under initialization, its lines at rest, receives the valid bit of the instruction
and nothing else. -/
theorem StimulusEffect.receive {i : Instr} (effect : StimulusEffect s i (.next t)) (hok : s.LinesOk)
    (hq : readerSlot s.cfg r = some q) (hr : s.initializing r = false) :
    t.reader q = (s.reader q).receive s.cfg (validBit r i).toList := by
  have hlevel (k : LineSel) (x : Level) : sample s q k x = x :=
    sample_of_not_initializing hok ((readerSlot_eq_some.1 hq).1 ▸ hr) k x
  have other {r' : ReaderIx} (h : i.reader? = some r') (hne : r' ≠ r) : validBit r i = none :=
    validBit_eq_none (by simpa [h] using hne)
  cases effect with
  | @badReader _ r' hi hq' =>
    have hne : r' ≠ r := by rintro rfl; simp [hq] at hq'
    simp [other hi hne]
  | @initRace r' q' k x hq' hr' =>
    have hne : r' ≠ r := by rintro rfl; simp [hr] at hr'
    simp [other (reader?_edge k r' x) hne]
  | @valid r' q' k x hq' hr' hx =>
    by_cases hrr : r' = r
    · subst hrr
      obtain rfl : q = q' := by simpa [hq] using hq'
      rw [validBit_edge, if_pos ⟨rfl, (hlevel k x).symm.trans hx⟩, appendBit_eq, reader_setReader_same]
      rfl
    · have hqq : q ≠ q' := by rintro rfl; exact hrr (readerSlot_injective hq' hq)
      rw [other (reader?_edge k r' x) hrr, appendBit_reader, if_neg hqq]
      rfl
  | @spurious r' q' k x hq' hr' hx =>
    have hnone : validBit r (k.edge r' x) = none := by
      rw [validBit_edge, if_neg]
      rintro ⟨rfl, rfl⟩
      obtain rfl : q = q' := by simpa [hq] using hq'
      simp [hlevel] at hx
    simp [hnone]
  | readCode | readCount | busy | start | notBusy => simp [validBit]
  | @micro q' hb hq' =>
    have hqq : q ≠ q' := by
      rintro rfl
      simp [initializing_eq_true.2 ⟨hb, readerSlot_injective hq' hq⟩] at hr
    simp [validBit, microAct_reader_other _ s hqq]

/-- A step on one word, from a state of the invariant: a reader that is not under initialization receives
the valid bit of that word, if it has one. -/
theorem step_receives {w : StimulusWord} {rest : List StimulusWord} (h : s.Inv) (hs : s.stimuli = w :: rest)
    (hstep : step s = .next t) (hq : readerSlot s.cfg r = some q) (hr : s.initializing r = false) :
    t.reader q = (s.reader q).receive s.cfg (traceBits r [w]) := by
  obtain ⟨-, -, -, hok⟩ := inv_taking h rest
  rw [traceBits_cons, traceBits_nil, List.append_nil]
  obtain ⟨e, hd, rfl⟩ | ⟨i, hd, he⟩ := step_taking_cases hs hstep <;> rw [hd]
  · simp
  · have effect := exec_effect hd (s.taking rest)
    rw [he] at effect
    exact effect.receive hok hq hr

/-- No step of the sequencer makes it busy (R81, R89). -/
theorem busy_eq_false_of_sequencer_step (m : MicroOp) (q : Slot) (hb : s.busy = false) :
    (microAct m q s).advance.busy = false := by
  have hact : (microAct m q s).busy = false := by
    by_cases hm : m = .clear
    · subst hm; rfl
    · rw [microAct_busy hm, hb]
  unfold State.advance
  split
  · rfl
  · exact hact

/-- The initialization of a reader starts by its own `INIT` alone (R80). -/
theorem step_not_initializing {w : StimulusWord} {rest : List StimulusWord} (hs : s.stimuli = w :: rest)
    (hstep : step s = .next t) (hw : decodeStimulus w ≠ .ok (.init r)) (hr : s.initializing r = false) :
    t.initializing r = false := by
  obtain ⟨e, hd, rfl⟩ | ⟨i, hd, he⟩ := step_taking_cases hs hstep
  · simpa [State.initializing] using hr
  · cases exec_nextEffect he with
    | raised | unchanged | read | appended => simpa [State.initializing] using hr
    | started r' hi =>
      have hne : r' ≠ r := by rintro rfl; exact hw (hi ▸ hd)
      exact initializing_eq_false.2 (.inr hne)
    | @sequenced m q' =>
      exact initializing_eq_false.2 ((initializing_eq_false.1 hr).imp
        (busy_eq_false_of_sequencer_step m q' (s := s.taking rest)) fun hne => by simpa using hne)

end

/-! ### Induction along a trace -/

/-- `J ws u` (where `ws` is what is left of the trace, and `u` the state) is kept by every step that takes a
word of the trace from a state of the invariant. -/
def KeptAlong (J : List StimulusWord → State → Prop) : Prop :=
  ∀ w ws rest u v, u.Inv → u.stimuli = w :: rest → step u = .next v → J (w :: ws) u → J ws v

section
variable {J : List StimulusWord → State → Prop} {s : State} {ws rest : List StimulusWord}

/-- A trace runs to its end, which meets the invariant and whatever each step keeps. -/
theorem run_of_keptAlong (hJ : KeptAlong J) (h : s.Inv) (hs : s.stimuli = ws ++ rest) (hstart : J ws s) :
    ∃ t, run ws.length s = .next t ∧ t.Inv ∧ t.stimuli = rest ∧ J [] t := by
  induction ws generalizing s with
  | nil => exact ⟨s, rfl, h, hs, hstart⟩
  | cons w ws ih =>
    obtain ⟨u, hstep, hu⟩ := stepKeepsTheInvariantAndNeverStops s h
    obtain ⟨t, hrun, ht⟩ := ih hu (step_stimuli hs hstep) (hJ w ws _ s u h hs hstep hstart)
    exact ⟨t, (run_succ _ hstep).trans hrun, ht⟩

/-- The reader, with the bits of the rest of the trace received, is the same all along the trace. -/
def WillBe (cfg : Config) (r : ReaderIx) (q : Slot) (rd : Reader) (ws : List StimulusWord) (u : State) :
    Prop :=
  u.cfg = cfg ∧ (u.reader q).receive cfg (traceBits r ws) = rd

/-- A reader that is not under initialization anywhere along a trace receives the bits of its valid edges. -/
theorem run_receives {r : ReaderIx} {q : Slot} (hJ : KeptAlong J)
    (hidle : ∀ ws u, J ws u → u.initializing r = false) (h : s.Inv) (hq : readerSlot s.cfg r = some q)
    (hs : s.stimuli = ws ++ rest) (hstart : J ws s) :
    ∃ t, run ws.length s = .next t ∧ t.Inv ∧ t.stimuli = rest ∧ J [] t ∧ t.cfg = s.cfg ∧
      t.reader q = (s.reader q).receive s.cfg (traceBits r ws) := by
  have kept : KeptAlong fun ws' u =>
      J ws' u ∧ WillBe s.cfg r q ((s.reader q).receive s.cfg (traceBits r ws)) ws' u := by
    rintro w ws' rest' u v hu hsu hstep ⟨hj, hcfg, hrd⟩
    refine ⟨hJ w ws' rest' u v hu hsu hstep hj, (step_keeps_cfg hstep).trans hcfg, ?_⟩
    rw [step_receives hu hsu hstep (hcfg ▸ hq) (hidle _ _ hj), hcfg, ← Reader.receive_append,
      ← traceBits_append]
    exact hrd
  obtain ⟨t, hrun, hinv, hrest, hend, hcfg, hrd⟩ := run_of_keptAlong kept h hs ⟨hstart, rfl, rfl⟩
  exact ⟨t, hrun, hinv, hrest, hend, hcfg, hrd⟩

/-- The reader `r` is idle and the rest of the trace has no `INIT` of it. -/
def NoInit (r : ReaderIx) (ws : List StimulusWord) (u : State) : Prop :=
  (∀ w ∈ ws, decodeStimulus w ≠ .ok (.init r)) ∧ u.initializing r = false

theorem noInit_keptAlong (r : ReaderIx) : KeptAlong (NoInit r) :=
  fun w _ _ _ _ _ hs hstep ⟨hw, hr⟩ =>
    ⟨fun w' hw' => hw w' (.tail w hw'), step_not_initializing hs hstep (hw w List.mem_cons_self) hr⟩

/-- Along a trace without `INIT` of a reader that is not under initialization, the reader receives the bits
of its valid edges. -/
theorem run_receives_of_noInit {r : ReaderIx} {q : Slot} (h : s.Inv) (hq : readerSlot s.cfg r = some q)
    (hs : s.stimuli = ws ++ rest) (hstart : NoInit r ws s) :
    ∃ t, run ws.length s = .next t ∧ t.stimuli = rest ∧
      t.reader q = (s.reader q).receive s.cfg (traceBits r ws) := by
  obtain ⟨t, hrun, -, hrest, -, -, hrd⟩ :=
    run_receives (noInit_keptAlong r) (fun _ _ hj => hj.2) h hq hs hstart
  exact ⟨t, hrun, hrest, hrd⟩

end

/-- Settles O23: what the reader has received, in closed form. -/
theorem traceAppendsItsValidBitsToAnyContents : Obligations.TraceAppendsItsValidBitsToAnyContents := by
  intro s r q ws rest h hq hidle hs hw
  obtain ⟨t, hrun, -, hrd⟩ := run_receives_of_noInit h hq hs ⟨hw, initializing_eq_false.2 hidle⟩
  obtain ⟨hcode, hcnt⟩ := h.2.1 q
  rw [Reader.receive_eq hcode hcnt] at hrd
  exact ⟨t, hrun, by rw [hrd], by rw [hrd]⟩

/-! ### The value of a frame -/

/-- The value of two frames in a row (R22, R35). -/
theorem frameValue_append_list (xs ys : List Bool) :
    frameValue (xs ++ ys) = frameValue xs * 2 ^ ys.length + frameValue ys := by
  induction xs with
  | nil => simp
  | cons b xs ih =>
    rw [List.cons_append, frameValue_cons, frameValue_cons, ih, List.length_append, pow_add]
    ring

/-- Truncated to `n` bits, a longer frame is its last `n` bits (R73). -/
theorem frameValue_mod_two_pow {n : Nat} {bits : List Bool} (h : n ≤ bits.length) :
    frameValue bits % 2 ^ n = frameValue (bits.drop (bits.length - n)) := by
  have hlength : (bits.drop (bits.length - n)).length = n := by rw [List.length_drop]; omega
  have hlt := frameValue_lt (bits.drop (bits.length - n))
  rw [hlength] at hlt
  have happend := frameValue_append_list (bits.take (bits.length - n)) (bits.drop (bits.length - n))
  rw [List.take_append_drop, hlength] at happend
  rw [happend, Nat.mul_add_mod_of_lt hlt]

/-- Bit `j` of a frame's value is its bit `j` from the end (R22). -/
theorem testBit_frameValue (bits : List Bool) (j : Nat) :
    (frameValue bits).testBit j = (decide (j < bits.length) && bits.getD (bits.length - 1 - j) false) := by
  induction bits with
  | nil => simp
  | cons b bs ih =>
    rw [frameValue_cons, mul_comm, Nat.testBit_two_pow_mul_add _ (frameValue_lt bs), ih, List.length_cons,
      Nat.add_sub_cancel]
    obtain hj | rfl | hj := Nat.lt_trichotomy j bs.length
    · have hpos : bs.length - j = (bs.length - 1 - j) + 1 := by omega
      rw [hpos]
      simp [hj, Nat.lt_succ_of_lt hj]
    · cases b <;> simp
    · have hzero : b.toNat.testBit (j - bs.length) = false := by
        obtain ⟨m, hm⟩ : ∃ m, j - bs.length = m + 1 := ⟨j - bs.length - 1, by omega⟩
        rw [hm, Nat.testBit_succ]
        cases b <;> simp
      simp [hzero, Nat.not_lt.2 hj.le, Nat.not_lt.2 (Nat.succ_le_of_lt hj)]

/-- Settles O22: from 0 the reader holds the value of its bits, truncated. -/
theorem accumulatorHoldsTheBitsInArrivalOrder : Obligations.AccumulatorHoldsTheBitsInArrivalOrder := by
  intro s r q ws rest h hq hidle hcode hcnt hs hw
  obtain ⟨t, hrun, hrest, hrd⟩ := run_receives_of_noInit h hq hs ⟨hw, initializing_eq_false.2 hidle⟩
  obtain ⟨hcode', hcnt'⟩ := h.2.1 q
  have hvalue : (t.reader q).code = frameValue (traceBits r ws) % 2 ^ s.cfg.codeW := by
    rw [hrd, Reader.receive_eq hcode' hcnt', hcode]
    simp
  refine ⟨t, hrun, hrest, fun hn => ?_, fun hn => ?_, fun j => ?_⟩
  · have hlt : frameValue (traceBits r ws) < 2 ^ s.cfg.codeW :=
      (frameValue_lt _).trans_le (Nat.pow_le_pow_right two_pos hn)
    exact hvalue.trans (Nat.mod_eq_of_lt hlt)
  · rw [hvalue, frameValue_mod_two_pow hn.le]
  · rw [hvalue, Nat.testBit_mod_two_pow, testBit_frameValue, Bool.and_assoc]

end Sys2Proof.Machine

/-! Whole initializations (41_init_sequencer.md R90, R93): the rows that `INIT` and its eight `SEQ` steps go
through, what they leave when other words stand between, and a frame after them. -/

namespace Sys2Proof.Machine

/-! ### Single steps of a run -/

theorem decodeStimulus_word {i : Instr} (h : encode i = .stimulus i.word) :
    decodeStimulus i.word = .ok i := by
  have hdecode := decodeOfEncodeIsTheInstruction i
  rwa [h] at hdecode

theorem decodeStimulus_seq : decodeStimulus 0x60 = .ok .seq := by decide

section
variable {s t : State} {r : ReaderIx} {q : Slot} {rest : List StimulusWord}

theorem run_one (h : step s = .next t) : run 1 s = .next t := run_succ 0 h

/-- One more step after a run. -/
theorem run_snoc {n : Nat} {u : State} (hrun : run n s = .next t) (hstep : step t = .next u) :
    run (n + 1) s = .next u := (run_add 1 hrun).trans (run_one hstep)

/-- The invariant holds all along a run. -/
theorem run_inv {n : Nat} (h : s.Inv) (hrun : run n s = .next t) : t.Inv := by
  induction n generalizing s with
  | zero => cases hrun; exact h
  | succ n ih =>
    obtain ⟨u, hstep, hu⟩ := stepKeepsTheInvariantAndNeverStops s h
    exact ih hu ((run_succ n hstep).symm.trans hrun)

theorem step_init (hc : s.cfg.WellFormed) (hq : readerSlot s.cfg r = some q) (hb : s.busy = false)
    (hs : s.stimuli = (Instr.init r).word :: rest) : step s = .next ((s.taking rest).startInit r) :=
  (step_decoded hc hs (decodeStimulus_word rfl)).trans (exec_init_idle (by simp [hq]) hb)

theorem step_seq (hc : s.cfg.WellFormed) (hb : s.busy = true) (hq : readerSlot s.cfg s.seqR = some q)
    (hs : s.stimuli = 0x60 :: rest) :
    step s = .next (microAct (MicroOp.ofPhase s.seqPhase) q (s.taking rest)).advance :=
  (step_decoded hc hs decodeStimulus_seq).trans
    ((execSeq_busy (s := s.taking rest) hb).trans (microStep_some hq))

end

/-! ### The rows of the sequence table -/

/-- The reader after the first `n` micro-operations (R93). -/
def Reader.afterSteps (rd : Reader) : Nat → Reader
  | 0 => rd
  | n + 1 => (rd.afterSteps n).act (MicroOp.ofPhase (BitVec.ofNat 3 n))

/-- `t` is the state after `n` steps of the sequencer on the reader `q`, from the state `s` right after its
`INIT`. -/
structure AfterSteps (s : State) (q : Slot) (n : Nat) (t : State) : Prop where
  cfg : t.cfg = s.cfg
  seqR : t.seqR = s.seqR
  busy : t.busy = decide (n < 8)
  phase : t.seqPhase = BitVec.ofNat 3 (min n 7)
  same : t.reader q = (s.reader q).afterSteps n
  other : ∀ q', q' ≠ q → t.reader q' = s.reader q'
  faulted : t.faulted = s.faulted
  refused : t.refused = s.refused

section
variable {s t : State} {r : ReaderIx} {q : Slot} {n : Nat} {rest : List StimulusWord}

theorem AfterSteps.phase_eq (h : AfterSteps s q n t) (hn : n < 8) : t.seqPhase = BitVec.ofNat 3 n := by
  rw [h.phase, min_eq_left (Nat.le_of_lt_succ hn)]

/-- The eighth step ends `busy` and keeps the phase; each one before it counts the phase up (R81). -/
theorem AfterSteps.sequencer (h : AfterSteps s q n t) (hn : n < 8) :
    (microAct (MicroOp.ofPhase t.seqPhase) q (t.taking rest)).advance.busy = decide (n + 1 < 8) ∧
    (microAct (MicroOp.ofPhase t.seqPhase) q (t.taking rest)).advance.seqPhase =
      BitVec.ofNat 3 (min (n + 1) 7) := by
  have hphase := h.phase_eq hn
  obtain rfl | hlt := Nat.eq_or_lt_of_le (Nat.le_of_lt_succ hn)
  · exact busy_of_last_step (s := t.taking rest) hphase
  · have hne : t.seqPhase ≠ 7 := by
      rw [hphase]
      interval_cases n <;> decide
    obtain ⟨hbusy, hnext⟩ := busy_of_earlier_step (q := q) (s := t.taking rest) hne
    have hlt' : n + 1 < 8 := Nat.succ_lt_succ hlt
    refine ⟨hbusy.trans (h.busy.trans (by simp [hn, hlt'])), hnext.trans ?_⟩
    rw [min_eq_left (Nat.le_of_lt_succ hlt'), BitVec.ofNat_add, taking_seqPhase, hphase]
    rfl

/-- One more step of the sequencer. -/
theorem AfterSteps.step (h : AfterSteps s q n t) (hn : n < 8) :
    AfterSteps s q (n + 1) (microAct (MicroOp.ofPhase t.seqPhase) q (t.taking rest)).advance where
  cfg := by simp [h.cfg]
  seqR := by simp [h.seqR]
  busy := (h.sequencer hn).1
  phase := (h.sequencer hn).2
  same := by simp [h.same, h.phase_eq hn, Reader.afterSteps]
  other q' hq' := by simp [microAct_reader_other _ _ hq', h.other q' hq']
  faulted := by simp [h.faulted]
  refused := by simp [h.refused]

/-- `n` words `SEQ` after an `INIT` perform the first `n` micro-operations (R81). -/
theorem run_seqSteps (hc : s.cfg.WellFormed) (hb : s.busy = true) (hp : s.seqPhase = 0)
    (hq : readerSlot s.cfg s.seqR = some q) (hn : n ≤ 8) (hs : s.stimuli = List.replicate n 0x60 ++ rest) :
    ∃ t, run n s = .next t ∧ t.stimuli = rest ∧ AfterSteps s q n t := by
  induction n generalizing rest with
  | zero => exact ⟨s, rfl, hs, rfl, rfl, hb, hp, rfl, fun _ _ => rfl, rfl, rfl⟩
  | succ n ih =>
    rw [List.replicate_succ', List.append_assoc, List.singleton_append] at hs
    obtain ⟨t, hrun, hrest, hafter⟩ := ih (Nat.le_of_succ_le hn) hs
    have hbusy : t.busy = true := by simpa using hafter.busy.trans (decide_eq_true hn)
    have hstep := step_seq (hafter.cfg ▸ hc) hbusy (by rw [hafter.cfg, hafter.seqR, hq]) hrest
    exact ⟨_, run_snoc hrun hstep, by simp, hafter.step hn⟩

/-- `INIT` and `n` words `SEQ`. -/
theorem run_initSteps (hc : s.cfg.WellFormed) (hq : readerSlot s.cfg r = some q) (hb : s.busy = false)
    (hn : n ≤ 8) (hs : s.stimuli = (Instr.init r).word :: (List.replicate n 0x60 ++ rest)) :
    ∃ t, run (n + 1) s = .next t ∧ t.stimuli = rest ∧
      AfterSteps ((s.taking (List.replicate n 0x60 ++ rest)).startInit r) q n t := by
  obtain ⟨t, hrun, ht⟩ :=
    run_seqSteps (s := (s.taking (List.replicate n 0x60 ++ rest)).startInit r) hc rfl rfl hq hn rfl
  exact ⟨t, (run_succ n (step_init hc hq hb hs)).trans hrun, ht⟩

end

/-- Settles O36: the table of R93 evaluated row by row. -/
theorem sequenceGoesThroughTheTableOfLines : Obligations.SequenceGoesThroughTheTableOfLines := by
  intro s r q n rest hc hq hb hn hs
  obtain ⟨t, hrun, hrest, hafter⟩ := run_initSteps hc hq hb hn hs
  refine ⟨t, hrun, hrest, hafter.seqR, hafter.busy, hafter.same.trans ?_, hafter.other⟩
  interval_cases n <;> rfl

/-! ### Re-arming -/

/-- After eight steps the reader is empty and armed (R90). -/
theorem Reader.afterSteps_eight (rd : Reader) :
    rd.afterSteps 8 = ⟨0, 0, ⟨.input, .low, true⟩, ⟨.input, .low, true⟩⟩ := rfl

theorem pulse_eq_edge (r : ReaderIx) (b : Bool) :
    pulse r b = (if b then LineSel.one else LineSel.zero).edge r .low := by cases b <;> rfl

theorem decodeStimulus_pulse (r : ReaderIx) (b : Bool) : decodeStimulus (pulse r b).word = .ok (pulse r b) :=
  decodeStimulus_word (by cases b <;> rfl)

/-- The words of a frame carry its bits (R64). -/
theorem traceBits_frame (r : ReaderIx) (bits : List Bool) : traceBits r (Pseudo.frame r bits).words = bits := by
  induction bits with
  | nil => rfl
  | cons b bs ih =>
    have hwords : (Pseudo.frame r (b :: bs)).words = (pulse r b).word :: (Pseudo.frame r bs).words := rfl
    have hbit : validBit r (pulse r b) = some b := by cases b <;> simp [pulse, validBit]
    rw [hwords, traceBits_cons, ih, decodeStimulus_pulse]
    simp [hbit]

/-- The words of a frame are pulses (R64). -/
theorem exists_pulse_of_mem_frame {r : ReaderIx} {bits : List Bool} {w : StimulusWord}
    (h : w ∈ (Pseudo.frame r bits).words) : ∃ b, w = (pulse r b).word := by
  obtain ⟨i, hi, rfl⟩ := List.mem_map.1 h
  obtain ⟨b, -, rfl⟩ := List.mem_map.1 hi
  exact ⟨b, rfl⟩

/-- What is left of the trace are pulses of the reader `r`, the sequencer is idle and the marks are `f`
and `g`. -/
def OnlyPulses (r : ReaderIx) (q : Slot) (f g : Bool) (ws : List StimulusWord) (u : State) : Prop :=
  (∀ w ∈ ws, ∃ b, w = (pulse r b).word) ∧ readerSlot u.cfg r = some q ∧ u.busy = false ∧
    u.faulted = f ∧ u.refused = g

/-- A pulse is a valid edge while the sequencer is idle (R64, R93). -/
theorem step_pulse {s : State} {r : ReaderIx} {q : Slot} {b : Bool} {rest : List StimulusWord} (h : s.Inv)
    (hq : readerSlot s.cfg r = some q) (hb : s.busy = false) (hs : s.stimuli = (pulse r b).word :: rest) :
    step s = .next (appendBit (s.taking rest) q b) := by
  obtain ⟨-, -, -, hok⟩ := inv_taking h rest
  have hidle (r' : ReaderIx) : (s.taking rest).initializing r' = false := initializing_eq_false.2 (.inl hb)
  have hbit : (if b then LineSel.one else LineSel.zero).bitValue = b := by cases b <;> rfl
  rw [step_decoded h.1 hs (decodeStimulus_pulse r b), pulse_eq_edge,
    exec_edge_of_sample_low (s := s.taking rest) hq (hidle r)
      (sample_of_not_initializing hok (hidle _) _ _), hbit]

theorem onlyPulses_keptAlong (r : ReaderIx) (q : Slot) (f g : Bool) : KeptAlong (OnlyPulses r q f g) := by
  rintro w ws rest u v hu hs hstep ⟨hw, hq, hb, hf, hg⟩
  obtain ⟨b, rfl⟩ := hw w List.mem_cons_self
  obtain rfl := Host.Outcome.next.inj ((step_pulse hu hq hb hs).symm.trans hstep)
  exact ⟨fun w' hw' => hw w' (.tail _ hw'), hq, hb, hf, hg⟩

section
variable {s : State} {r : ReaderIx} {q : Slot} {rest : List StimulusWord}

/-- A frame while the sequencer is idle is received, and sets no mark. -/
theorem run_frame (h : s.Inv) (hq : readerSlot s.cfg r = some q) (hb : s.busy = false) (bits : List Bool)
    (hs : s.stimuli = (Pseudo.frame r bits).words ++ rest) :
    ∃ t, run bits.length s = .next t ∧ t.Inv ∧ t.stimuli = rest ∧ t.cfg = s.cfg ∧ t.busy = false ∧
      t.faulted = s.faulted ∧ t.refused = s.refused ∧ t.reader q = (s.reader q).receive s.cfg bits := by
  have hstart : OnlyPulses r q s.faulted s.refused (Pseudo.frame r bits).words s :=
    ⟨fun w hw => exists_pulse_of_mem_frame hw, hq, hb, rfl, rfl⟩
  obtain ⟨t, hrun, hinv, hrest, ⟨-, -, hbusy, hf, hg⟩, hcfg, hrd⟩ :=
    run_receives (onlyPulses_keptAlong r q _ _)
      (fun _ _ ⟨_, _, hidle, _⟩ => initializing_eq_false.2 (.inl hidle)) h hq hs hstart
  rw [traceBits_frame] at hrd
  have hlength : (Pseudo.frame r bits).words.length = bits.length := by simp [Pseudo.words, Pseudo.expand]
  exact ⟨t, hlength ▸ hrun, hinv, hrest, hcfg, hbusy, hf, hg, hrd⟩

/-- `INITW` while the sequencer is idle leaves the reader empty and armed, and sets no mark (R90). -/
theorem run_initw (h : s.Inv) (hq : readerSlot s.cfg r = some q) (hb : s.busy = false)
    (hs : s.stimuli = (Pseudo.initw r).words ++ rest) :
    ∃ t, run 9 s = .next t ∧ t.Inv ∧ t.stimuli = rest ∧ t.cfg = s.cfg ∧ t.busy = false ∧
      t.faulted = s.faulted ∧ t.refused = s.refused ∧
      t.reader q = ⟨0, 0, ⟨.input, .low, true⟩, ⟨.input, .low, true⟩⟩ := by
  obtain ⟨t, hrun, hrest, hafter⟩ := run_initSteps (n := 8) h.1 hq hb le_rfl hs
  exact ⟨t, hrun, run_inv h hrun, hrest, hafter.cfg, hafter.busy, hafter.faulted, hafter.refused,
    hafter.same.trans (Reader.afterSteps_eight _)⟩

end

/-- Settles O38: a frame, an `INITW` that empties the reader, and a second frame that it receives from 0. -/
theorem rearmLeavesNoResidue : Obligations.RearmLeavesNoResidue := by
  intro s r q before after rest h hq hb hs
  rw [List.append_assoc, List.append_assoc] at hs
  obtain ⟨t₁, hrun₁, hinv₁, hs₁, hcfg₁, hb₁, hf₁, hg₁, -⟩ := run_frame h hq hb before hs
  have hq₁ : readerSlot t₁.cfg r = some q := hcfg₁ ▸ hq
  obtain ⟨t₂, hrun₂, hinv₂, hs₂, hcfg₂, hb₂, hf₂, hg₂, hrd₂⟩ := run_initw hinv₁ hq₁ hb₁ hs₁
  have hq₂ : readerSlot t₂.cfg r = some q := hcfg₂ ▸ hq₁
  obtain ⟨t, hrun, -, hrest, -, hbusy, hf, hg, hrd⟩ := run_frame hinv₂ hq₂ hb₂ after hs₂
  refine ⟨t, ?_, hrest, ?_, hbusy, hf.trans (hf₂.trans hf₁), hg.trans (hg₂.trans hg₁)⟩
  · rw [Nat.add_assoc, run_add _ hrun₁, run_add _ hrun₂, hrun]
  · rw [hrd, hrd₂, hcfg₂, hcfg₁, Reader.receive_eq (by positivity) (by positivity)]
    simp

/-! ### An initialization with other words between -/

/-- While the sequencer is busy, a word that is neither `SEQ` nor an edge of its reader leaves the sequencer
as it is and records no fault (R78, R80). -/
theorem StimulusEffect.keeps_initialization {s t : State} {i : Instr} (effect : StimulusEffect s i (.next t))
    (hb : s.busy = true) (hseq : i ≠ .seq) (hedge : edgeOf s.seqR i = false) :
    t.busy = true ∧ t.seqR = s.seqR ∧ t.seqPhase = s.seqPhase ∧ t.faulted = s.faulted := by
  cases effect with
  | badReader | busy | valid | spurious | readCode | readCount => simp [hb]
  | initRace k x hq hr => simp [(initializing_eq_true.1 hr).2] at hedge
  | start _ hidle => simp [hb] at hidle
  | notBusy | micro => exact absurd rfl hseq

/-- The reader `r` is under initialization with seven words `SEQ` less its phase still in the trace, none of
its edges among them, and the mark `faulted` is `f`. -/
def UnderInitialization (r : ReaderIx) (q : Slot) (f : Bool) (ws : List StimulusWord) (u : State) : Prop :=
  (∀ w ∈ ws, onWord (edgeOf r) w = false) ∧ u.seqPhase.toNat + (ws.filter fun w => w == 0x60).length = 7 ∧
    readerSlot u.cfg r = some q ∧ u.busy = true ∧ u.seqR = r ∧ u.faulted = f

theorem underInitialization_keptAlong (r : ReaderIx) (q : Slot) (f : Bool) :
    KeptAlong (UnderInitialization r q f) := by
  rintro w ws rest u v hu hs hstep ⟨hedge, hcount, hq, hb, rfl, rfl⟩
  have hcfg := step_keeps_cfg hstep
  have hedges : ∀ w' ∈ ws, onWord (edgeOf u.seqR) w' = false := fun w' hw' => hedge w' (.tail w hw')
  by_cases hw : w = 0x60
  · subst hw
    obtain rfl := Host.Outcome.next.inj ((step_seq hu.1 hb hq hs).symm.trans hstep)
    rw [List.filter_cons_of_pos (by simp), List.length_cons] at hcount
    have hp : u.seqPhase ≠ 7 := by
      intro h7
      simp [h7] at hcount
    obtain ⟨hbusy, hphase⟩ := busy_of_earlier_step (q := q) (s := u.taking rest) hp
    refine ⟨hedges, ?_, by simpa using hq, hbusy.trans hb, by simp, by simp⟩
    rw [taking_seqPhase] at hphase
    rw [hphase, toNat_phase_succ hp]
    omega
  · rw [List.filter_cons_of_neg (by simpa using hw)] at hcount
    have kept : v.busy = true ∧ v.seqR = u.seqR ∧ v.seqPhase = u.seqPhase ∧ v.faulted = u.faulted := by
      obtain ⟨e, -, rfl⟩ | ⟨i, hd, he⟩ := step_taking_cases hs hstep
      · simp [hb]
      · have effect := exec_effect hd (u.taking rest)
        rw [he] at effect
        refine effect.keeps_initialization hb (fun hi => hw ?_) ?_
        · rw [eq_word_of_decodeStimulus hd, hi, word_seq]
        · simpa [onWord, hd] using hedge w List.mem_cons_self
    obtain ⟨hbusy, hseqR, hphase, hf⟩ := kept
    exact ⟨hedges, hphase ▸ hcount, hcfg ▸ hq, hbusy, hseqR, hf⟩

section
variable {s : State} {r : ReaderIx} {q : Slot} {rest : List StimulusWord}

theorem Reader.act_clear (rd : Reader) :
    rd.act (MicroOp.ofPhase 7) = ⟨0, 0, rd.zeroLine, rd.oneLine⟩ := rfl

/-- The last word `SEQ` of an initialization empties its reader, which is armed, ends `busy`, and leaves
the other readers alone (R89, R90). -/
theorem step_last_seq (h : s.Inv) (hb : s.busy = true) (hq : readerSlot s.cfg s.seqR = some q)
    (hp : s.seqPhase = 7) (hs : s.stimuli = 0x60 :: rest) :
    ∃ t, step s = .next t ∧ t.stimuli = rest ∧ t.busy = false ∧ t.faulted = s.faulted ∧
      t.reader q = ⟨0, 0, ⟨.input, .low, true⟩, ⟨.input, .low, true⟩⟩ ∧
      ∀ q', q' ≠ q → t.reader q' = s.reader q' := by
  obtain ⟨hc, -, -, hok⟩ := h
  have hr : s.seqR = slotIx q := (readerSlot_eq_some.1 hq).1
  have hrow : (s.reader q).AtPhase 7 := hp ▸ LinesOk.atPhase hok (initializing_eq_true.2 ⟨hb, hr⟩)
  obtain ⟨hz, ho⟩ := Reader.lines_of_atPhase_seven hrow
  refine ⟨_, step_seq hc hb hq hs, by simp,
    (busy_of_last_step (s := s.taking rest) hp).1, by simp, ?_, fun q' hq' => ?_⟩
  · rw [advance_reader, microAct_reader_same, taking_reader, hp, Reader.act_clear, hz, ho]
  · simp [microAct_reader_other _ _ hq']

end

/-- Settles O37: between its first and its last word the initialization stays under way, so every other
reader only receives its own bits, and the invariant gives the lines at phase 7. -/
theorem initializationLeavesTheReaderArmed : Obligations.InitializationLeavesTheReaderArmed := by
  intro s r q between rest h hq hb hedge hcount hs
  have hu : ((s.taking (between ++ 0x60 :: rest)).startInit r).Inv :=
    inv_startInit (inv_taking h _) hb (by simp [hq])
  have hinit := step_init h.1 hq hb hs
  have hkept := underInitialization_keptAlong r q s.faulted
  have hstart :
      UnderInitialization r q s.faulted between ((s.taking (between ++ 0x60 :: rest)).startInit r) :=
    ⟨hedge, (Nat.zero_add _).trans hcount, hq, rfl, rfl, rfl⟩
  obtain ⟨u, hrun, hinv, hsu, -, hphase, hqu, hbu, hru, hfu⟩ := run_of_keptAlong hkept hu rfl hstart
  have hp : u.seqPhase = 7 := BitVec.eq_of_toNat_eq (by simpa using hphase)
  obtain ⟨t, hlast, hrest, hbusy, hf, hrd, hother⟩ := step_last_seq hinv hbu (hru ▸ hqu) hp hsu
  refine ⟨t, (run_succ _ hinit).trans (run_snoc hrun hlast), hrest, hbusy, hf.trans hfu, hrd, ?_⟩
  intro r' q' hq' hne
  have hrr : r ≠ r' := by
    rintro rfl
    exact hne (Option.some.inj (hq'.symm.trans hq))
  obtain ⟨u', hrun', -, -, -, -, hrd'⟩ := run_receives hkept
    (fun _ _ ⟨_, _, _, _, hr, _⟩ => initializing_eq_false.2 (.inr (hr ▸ hrr))) hu hq' rfl hstart
  obtain rfl := Host.Outcome.next.inj (hrun.symm.trans hrun')
  obtain ⟨hcode, hcnt⟩ := h.2.1 q'
  rw [startInit_reader, taking_reader, startInit_cfg, taking_cfg, Reader.receive_eq hcode hcnt] at hrd'
  rw [hother q' hne, hrd']
  exact ⟨rfl, rfl, rfl, rfl⟩

end Sys2Proof.Machine
